-- ==== Sys2Proof/Word.lean ====
section
/-!
DEFINITION. The word types of HB27-2I (00_scope.md R16 to R18).
-/
namespace Sys2Proof

/-- A micro-op word of `UPROG` (R67). -/
abbrev UopWord := BitVec 16
/-- A host register (R26). -/
abbrev RegWord := BitVec 32
/-- `uint5`, the micro-program counter and a `LOOP` target (R30). -/
abbrev UpcWord := BitVec 5
/-- `int16`, two's complement: a coefficient or one component of a sample (R16, R18). -/
abbrev S16 := BitVec 16
/-- `int48`, two's complement: one component of an accumulator lane (R18). -/
abbrev S48 := BitVec 48
/-- One byte of a host's byte view (R51). -/
abbrev Byte := BitVec 8

/-- `cint16`, a complex sample (R18). -/
structure Sample where
  re : S16
  im : S16
  deriving DecidableEq, Repr, Inhabited

/-- `cacc48`, one lane of an accumulator (R18). -/
structure Acc where
  re : S48
  im : S48
  deriving DecidableEq, Repr

end Sys2Proof
end

