-- ==== Sys2Proof/Config.lean ====
section
/-!
DEFINITION. The parameters of HB27-2I (00_scope.md R11) and the free values.
-/
namespace Sys2Proof

/-- `SRS_ROUND`, the tie rule of the shift (43_output.md R89). -/
inductive SrsRound where
  | halfUp     -- a tie rounds toward plus infinity (the default)
  | halfEven   -- a tie rounds to the even result
  | halfAway   -- a tie rounds away from zero
  deriving DecidableEq, Repr

/-- `SRS_SAT`, the overflow rule of the shift (43_output.md R89). -/
inductive SrsSat where
  | saturate   -- `sat16` (the default)
  | wrap       -- keep the low 16 bits
  deriving DecidableEq, Repr

/-- `COEFF_ROM` of the block as built, open (R12): it has no body, so no coefficient value is assumed. -/
opaque Config.coeffRom : Vector S16 31

/-- `N_INSTANCES`, open (R11, R129). -/
opaque Config.nInstances : Nat

/-- A free value: what the `n`-th host read of `OUT` without a defined value gives back, in stream `k` of such values
(R136, 93 V8; log 10: reads with the same stream and number give one value). -/
opaque Config.freeSample (k n : Nat) : Sample

/-- Something that happens on a platform outside the block (log 11, DESIGN CHOICE: the spec names no kinds). -/
inductive PlatformEvent where
  | signal (line : Nat)                      -- a line of the platform is asserted
  | read (address : Nat)                     -- the host reads a register's address
  | write (address : Nat) (value : RegWord)  -- the host writes a register's address
  deriving DecidableEq, Repr

/-- `PLATFORM_MAP`: where the registers and the buffers of one launch sit in a platform's address map, and how reset is
asserted (R11, R58, 70_reset_and_hazards.md R133). It is open, so whatever needs it takes it as an argument. -/
structure PlatformMap where
  ctrlAddr   : Nat
  statusAddr : Nat
  noutAddr   : Nat
  inBase     : Nat
  outBase    : Nat
  romBase    : Nat
  /-- The events by which the host asserts reset (R133). -/
  resetBy    : List PlatformEvent
  deriving DecidableEq, Repr

/-- The three registers sit at three addresses. -/
abbrev PlatformMap.RegistersApart (p : PlatformMap) : Prop :=
  p.ctrlAddr ≠ p.statusAddr ∧ p.ctrlAddr ≠ p.noutAddr ∧ p.statusAddr ≠ p.noutAddr

/-- The launch premise of R54 for an alignment `BUF_ALIGN`, open too: every buffer's base address is aligned. -/
abbrev PlatformMap.Aligned (bufAlign : Nat) (p : PlatformMap) : Prop :=
  bufAlign ∣ p.inBase ∧ bufAlign ∣ p.outBase ∧ bufAlign ∣ p.romBase

end Sys2Proof
end

