-- ==== Sys2Proof/Machine/Uprog.lean ====
section
/-!
DEFINITION. The default contents of `UPROG` (44_sequencing.md R100).
-/
namespace Sys2Proof.Machine

/-- The 25 words of R100 and the seven illegal words 0x0000 that follow them. -/
def defaultUprog : Vector UopWord 32 :=
  #v[0x1000, 0x2000, 0x2001,
     0x2002, 0x3003, 0x400A, 0x500F, 0x6000,
     0x2003, 0x300B, 0x4012, 0x500F, 0x6000,
     0x2000, 0x3013, 0x401A, 0x500F, 0x6000,
     0x2001, 0x301B, 0x4002, 0x500F, 0x6000,
     0x7003, 0x8000,
     0x0000, 0x0000, 0x0000, 0x0000, 0x0000, 0x0000, 0x0000]

end Sys2Proof.Machine
end

