-- ==== Sys2Proof/Machine/State.lean ====
section
/-!
DEFINITION. The state of HB27-2I (10_state.md R43), the host's moves (60_exceptions.md R126), and the reasons a step
can stop. An element of type `Option α` is the spec's own "an α or ⊥" (R19): `none` is `⊥`, a value the spec gives
elements at reset and at START, not a missing reset value.
-/
namespace Sys2Proof.Machine

/-- An element of the datapath state that a micro-op can find `⊥` (R116). -/
inductive Elem where
  | creg (i : Fin 32)
  | sb   (i : Fin 32)
  | acc0 (l : Fin 8)
  | acc1 (l : Fin 8)
  | ov0  (l : Fin 8)
  | ov1  (l : Fin 8)
  deriving DecidableEq, Repr

/-- The block's own faults, each with the info a model records (R116). -/
inductive FaultInfo where
  | illegalUop  (word : UopWord) (upc : UpcWord)
  | upcOverflow (upc : UpcWord)
  | undefRead   (upc : UpcWord) (elem : Elem)
  | inOverrun   (upc : UpcWord) (ip : RegWord) (lin : Nat)
  | outOverrun  (upc : UpcWord) (op : RegWord) (nout : RegWord)
  | badTrip     (upc : UpcWord)
  | badNout     (nout : RegWord)
  deriving DecidableEq, Repr

/-- The stored fields of `STATUS` (R28). The reserved bits have no storage: they read 0. -/
structure Status where
  busy  : Bool
  done  : Bool
  fault : Bool
  fcode : BitVec 4
  deriving DecidableEq, Repr

/-- A move of the host (R126). Reads and writes of registers take any register number (R26). -/
inductive HostAction where
  | writeReg (r : Nat) (v : RegWord)
  | readReg (r : Nat)
  | fillIn (window : List Sample)        -- fill `IN[0..LIN-1]`, LIN its length (R45)
  | fillInBytes (bytes : List Byte)      -- the same through the byte view (R51)
  | readOut (i : Nat)                    -- read `OUT[i]`
  | readOutByte (k : Nat)                -- read one byte of `OUT` through the byte view (R51)
  | reset                                -- R132, R133
  deriving DecidableEq, Repr

/-- Whose turn it is (R123). -/
inductive Turn where
  | engine
  | host (a : HostAction)
  deriving DecidableEq, Repr

/-- What a host read gives back (R126). -/
inductive Reply where
  | reg (v : RegWord)
  | sample (v : Sample)
  | byte (b : Byte)
  deriving DecidableEq, Repr

/-- The elements of `OUT` that are not `⊥`, as (index, sample) pairs in rising index order: an index that is not
listed reads `⊥` (R47). -/
abbrev Memory := List (Nat × Sample)

structure State where
  /-- `STATUS` (R28). -/
  status : Status
  /-- `NOUT` (R29). -/
  nout : RegWord
  /-- The micro-program counter (R30). -/
  upc : UpcWord
  /-- `TRIP` (R31). -/
  trip : RegWord
  /-- `IP` (R32). -/
  ip : RegWord
  /-- `OP` (R33). -/
  op : RegWord
  /-- `CREG[0..31]` (R34). -/
  creg : Vector (Option S16) 32
  /-- `SB[0..31]` (R35). -/
  sb : Vector (Option Sample) 32
  /-- `ACC0[0..7]` (R36). -/
  acc0 : Vector (Option Acc) 8
  /-- `ACC1[0..7]` (R37). -/
  acc1 : Vector (Option Acc) 8
  /-- `OV0[0..7]` (R38). -/
  ov0 : Vector (Option Sample) 8
  /-- `OV1[0..7]` (R38). -/
  ov1 : Vector (Option Sample) 8
  /-- `COEFF_ROM[0..30]` (R40): no step writes it. -/
  coeffRom : Vector S16 31
  /-- `UPROG[0..31]` (R41): no step writes it. -/
  uprog : Vector UopWord 32
  /-- `SRS_ROUND` (R89): a parameter, no step writes it. -/
  srsRound : SrsRound
  /-- `SRS_SAT` (R89): a parameter, no step writes it. -/
  srsSat : SrsSat
  /-- `IN[0..LIN-1]` (R45); `LIN` is its length. -/
  inp : List Sample
  /-- `OUT` (R47). -/
  out : Memory
  /-- The info recorded with the fault (R116, R118). -/
  faultInfo : Option FaultInfo
  /-- The model's own: the turns to come (R123); the engine's when none is listed. -/
  turns : List Turn
  /-- The model's own: what the last host read gave back (R126). -/
  reply : Option Reply
  /-- The model's own: the host has read `DONE` = 1 since the last START or reset (R61). -/
  doneSeen : Bool
  /-- The model's own: how many free values host reads of `OUT` have taken (93 V8). -/
  freeCount : Nat
  /-- The model's own: the stream its free values come from, one for each instance of a platform (log 10). -/
  freeStream : Nat
  deriving DecidableEq, Repr

/-- Why the machine has no next state. -/
inductive Fault where
  /-- Raised by a step in which it is the engine's turn while BUSY = 0 and FAULT = 0: the engine has no step (R95,
  93 V14). Safe: the machine stops. -/
  | idle
  /-- Raised by a step in which it is the engine's turn while FAULT = 1: the engine has no step (R95, R120). Safe:
  the machine stops. -/
  | stopped
  /-- Raised by a host read of `OUT` at an index that `OUT` does not have (R44, R103). Safe: the machine stops. -/
  | outIndexOutside
  deriving DecidableEq, Repr

/-- Moves the model has no meaning for. -/
inductive Refusal where
  /-- Raised by no arm: every micro-op has its meaning. Safe. -/
  | notModelled (mnemonic : String)
  /-- Raised by a host write of START while BUSY = 1: the host has no such move (R98, R136, 93 V10). Unsafe as R136
  says: a real block might do anything there. -/
  | startWhileBusy
  /-- Raised by a host fill of `IN` while BUSY = 1: the host has no such move (R136, 93 V11). Unsafe as R136 says. -/
  | fillWhileBusy
  /-- Raised by a host fill with a window whose length does not fit 32 bits (92 D28). Safe. -/
  | windowTooLong
  /-- Raised by a byte fill whose length is no multiple of 4: no access is narrower than one element (R55). Safe. -/
  | partialSample
  deriving DecidableEq, Repr

/-- The block right after reset, nothing supplied by the host yet (R43, R132). -/
def State.reset : State where
  status := { busy := false, done := false, fault := false, fcode := 0#4 }
  nout := 0#32
  upc := 0#5
  trip := 0#32
  ip := 0#32
  op := 0#32
  creg := Vector.replicate 32 none
  sb := Vector.replicate 32 none
  acc0 := Vector.replicate 8 none
  acc1 := Vector.replicate 8 none
  ov0 := Vector.replicate 8 none
  ov1 := Vector.replicate 8 none
  coeffRom := Config.coeffRom
  uprog := defaultUprog
  srsRound := .halfUp
  srsSat := .saturate
  inp := []
  out := []
  faultInfo := none
  turns := []
  reply := none
  doneSeen := false
  freeCount := 0
  freeStream := 0

end Sys2Proof.Machine
end

