-- ==== Sys2Proof/Machine/Flags.lean ====
section
/-!
DEFINITION. The only flags of HB27-2I, the fields of `STATUS` (10_state.md R28): no arithmetic sets a flag (R39).
-/
namespace Sys2Proof.Machine

/-- The fault codes (60_exceptions.md R116). -/
def faultCode : FaultInfo → BitVec 4
  | .illegalUop _ _ => 1#4
  | .upcOverflow _ => 2#4
  | .undefRead _ _ => 3#4
  | .inOverrun _ _ _ => 4#4
  | .outOverrun _ _ _ => 5#4
  | .badTrip _ => 6#4
  | .badNout _ => 7#4

/-- `STATUS` as the host reads it: BUSY, DONE, FAULT in bits 0 to 2, bit 3 zero, FCODE in bits 7:4, the rest zero
(R28). -/
def statusWord (t : Status) : RegWord :=
  (t.fcode ++ 0#1 ++ BitVec.ofBool t.fault ++ BitVec.ofBool t.done ++ BitVec.ofBool t.busy).setWidth 32

/-- The status after an accepted START: BUSY set, DONE cleared, the rest unchanged (44_sequencing.md R99). -/
def statusStarted (t : Status) : Status := { t with busy := true, done := false }

/-- The status after `DONE` (R97). -/
def statusCompleted (t : Status) : Status := { t with busy := false, done := true }

/-- The status after a fault: BUSY cleared, FAULT set, FCODE the code, DONE unchanged (60_exceptions.md R118). -/
def statusFaulted (t : Status) (f : FaultInfo) : Status :=
  { t with busy := false, fault := true, fcode := faultCode f }

end Sys2Proof.Machine
end

