-- ==== Sys2Proof/Machine/Ops.lean ====
section
/-!
DEFINITION. The operations on memory and on the sequencer that the meanings share: reading and writing `OUT`, the byte
view of the buffers, raising a fault, and the frame of a sequential micro-op.
-/
namespace Sys2Proof.Machine

/-! ## `OUT` -/

/-- `MemRead(OUT, i)`: `⊥` where nothing is listed (20_memory.md R47). -/
def Memory.read : Memory → Nat → Option Sample
  | [], _ => none
  | (j, w) :: m, i => if j = i then some w else Memory.read m i

/-- The entry that makes index `i` read `v`: none where `v` is `⊥`. -/
def Memory.entry (i : Nat) (v : Option Sample) : Memory :=
  match v with
  | some w => [(i, w)]
  | none => []

/-- `MemWrite(OUT, i, v)` (R57), keeping the rising order and listing no `⊥`. -/
def Memory.write : Memory → Nat → Option Sample → Memory
  | [], i, v => Memory.entry i v
  | (j, w) :: m, i, v =>
    if i < j then Memory.entry i v ++ (j, w) :: m
    else if i = j then Memory.entry i v ++ m
    else (j, w) :: Memory.write m i v

/-- Write a list of elements at consecutive indices, the first at `i`, in index order (R60). -/
def Memory.writeFrom : Memory → Nat → List (Option Sample) → Memory
  | m, _, [] => m
  | m, i, v :: vs => Memory.writeFrom (Memory.write m i v) (i + 1) vs

/-- The canonical form: strictly rising indices (and, by the entries' type, no entry that reads `⊥`). -/
def Memory.wf : Memory → Bool
  | [] => true
  | [_] => true
  | (i, _) :: (j, w) :: m => decide (i < j) && Memory.wf ((j, w) :: m)

/-! ## The byte view (20_memory.md R50, R51) -/

/-- A sample as one 32-bit word: `re` in bits 15:0, `im` in bits 31:16 (R50). -/
def packSample (v : Sample) : BitVec 32 := v.im ++ v.re

/-- The sample of a 32-bit word (R50). -/
def unpackSample (w : BitVec 32) : Sample := { re := w.extractLsb' 0 16, im := w.extractLsb' 16 16 }

/-- Byte `k` of a little-endian word, `k` in 0..3 for a sample and 0..1 for a coefficient (R51). -/
def byteOf {n : Nat} (w : BitVec n) (k : Nat) : Byte := w.extractLsb' (8 * k) 8

/-- The sample whose four bytes in a byte view are `b0` to `b3` (R51). -/
def sampleOfBytes (b0 b1 b2 b3 : Byte) : Sample := unpackSample (b3 ++ b2 ++ b1 ++ b0)

/-- The samples of a buffer given by its bytes, sample `i` at byte offset `4*i` (R51); none where the bytes end
inside a sample. -/
def windowOfBytes : List Byte → Option (List Sample)
  | [] => some []
  | b0 :: b1 :: b2 :: b3 :: rest => (windowOfBytes rest).map (sampleOfBytes b0 b1 b2 b3 :: ·)
  | _ => none

/-- The bytes of a buffer of samples (R51). -/
def bytesOfWindow : List Sample → List Byte
  | [] => []
  | v :: vs =>
    byteOf (packSample v) 0 :: byteOf (packSample v) 1 :: byteOf (packSample v) 2 :: byteOf (packSample v) 3
      :: bytesOfWindow vs

/-- `OUT` as bytes: the listed samples' bytes at their byte addresses (R51). -/
def Memory.cells : Memory → List Host.Cell
  | [] => []
  | (i, v) :: m =>
    (4 * i, byteOf (packSample v) 0) :: (4 * i + 1, byteOf (packSample v) 1) ::
    (4 * i + 2, byteOf (packSample v) 2) :: (4 * i + 3, byteOf (packSample v) 3) :: Memory.cells m

/-- Byte `k` of the coefficient table: coefficient `k / 2`, low byte first (R51). -/
def coeffByte (rom : Vector S16 31) (k : Nat) : Option Byte :=
  rom[k / 2]?.map fun c => byteOf c (k % 2)

/-! ## Faults (60_exceptions.md) -/

/-- Raising a fault: the status becomes the fault state, the info is recorded, nothing else is written (R117, R118). -/
def State.raise (s : State) (f : FaultInfo) : State :=
  { s with status := statusFaulted s.status f, faultInfo := some f }

/-- Taking a fault: the machine goes on to the fault state, in which the engine has no step (R118). -/
def takeFault (f : FaultInfo) (s : State) : Host.Outcome State Fault Refusal := .next (s.raise f)

/-! ## The sequencer (44_sequencing.md R95) -/

/-- `upc <- upc + 1`. -/
def State.advance (s : State) : State := { s with upc := s.upc + 1#5 }

/-- A micro-op other than `LOOP` and `DONE`: at `upc` = 31 it overflows before anything else; otherwise its effect
either raises a fault, nothing written, or is followed by the advance (R95, R117, R119). -/
def runSequential (effect : State → Except FaultInfo State) (s : State) : Host.Outcome State Fault Refusal :=
  if s.upc = 31#5 then takeFault (.upcOverflow s.upc) s
  else
    match effect s with
    | .ok t => .next t.advance
    | .error f => takeFault f s

end Sys2Proof.Machine
end

