-- ==== Sys2Proof/Machine/Operands.lean ====
section
/-!
DEFINITION. The operand forms of the micro-ops (30_encoding.md R69) and reading the datapath state, in which an
element can be `⊥` (00_scope.md R19).
-/
namespace Sys2Proof.Machine

/-- Index `(x + m) mod 32` of the sliding buffer (10_state.md R35, R69). -/
def ring (x : BitVec 5) (m : Nat) : Fin 32 := ⟨(x.toNat + m) % 32, Nat.mod_lt _ (by decide)⟩

/-- Element `k` of `CREG`, for the fixed indices the micro-ops read. -/
def cregIndex (k : Nat) : Fin 32 := ⟨k % 32, Nat.mod_lt _ (by decide)⟩

/-- The element holds a value, not `⊥`. -/
def State.isDefined (s : State) : Elem → Bool
  | .creg i => s.creg[i].isSome
  | .sb i => s.sb[i].isSome
  | .acc0 l => s.acc0[l].isSome
  | .acc1 l => s.acc1[l].isSome
  | .ov0 l => s.ov0[l].isSome
  | .ov1 l => s.ov1[l].isSome

/-- The first `⊥` among the elements a micro-op's pseudocode checks, in its order (60_exceptions.md R116, R119). -/
def State.firstUndef (s : State) (es : List Elem) : Option Elem := es.find? fun e => !s.isDefined e

/-- The check that opens `MULSYM`, `MULCTR`, `SRSZIP` and `WR`: `UNDEF_READ` with the first `⊥` element, or go on. -/
def State.checkDefined (s : State) (es : List Elem) (rest : Except FaultInfo State) : Except FaultInfo State :=
  match s.firstUndef es with
  | some e => .error (.undefRead s.upc e)
  | none => rest

/-- An exact sum `f 0 + ... + f (n-1)` over values that may be `⊥`: `⊥` if one of them is. -/
def sumDefined : Nat → (Nat → Option Int) → Option Int
  | 0, _ => some 0
  | n + 1, f =>
    match sumDefined n f, f n with
    | some a, some b => some (a + b)
    | _, _ => none

/-- A complex value from its two exact components, narrowed to an accumulator lane (R18); `⊥` if one is. -/
def accOfInts (re im : Option Int) : Option Acc :=
  match re, im with
  | some a, some b => some { re := BitVec.ofInt 48 a, im := BitVec.ofInt 48 b }
  | _, _ => none

end Sys2Proof.Machine
end

