-- ==== Sys2Proof/Machine/Coefficient.lean ====
section
/-!
DEFINITION. `LDC` and `UPD` (41_coefficient_and_buffer.md).
-/
namespace Sys2Proof.Machine

/-- What `LDC` leaves in `CREG`: the table and the zero pad (R76). -/
def loadedCreg (rom : Vector S16 31) : Vector (Option S16) 32 :=
  Vector.ofFn fun i => if h : i.val < 31 then some rom[i.val] else some 0#16

/-- The effect of `LDC` (R76). -/
def ldcEffect (s : State) : Except FaultInfo State := .ok { s with creg := loadedCreg s.coeffRom }

/-- `LDC` (R76). -/
def execLdc (s : State) : Host.Outcome State Fault Refusal := runSequential ldcEffect s

/-- `SB` with `IN[p..p+7]` in slot `slot`, `IN[p]` in its lowest element (R77). -/
def fillSlot (slot : BitVec 2) (inp : List Sample) (p : Nat) (sb : Vector (Option Sample) 32) :
    Vector (Option Sample) 32 :=
  Vector.ofFn fun j => if j.val / 8 = slot.toNat then inp[p + j.val % 8]? else sb[j]

/-- The effect of `UPD slot` (R77). -/
def updEffect (slot : BitVec 2) (s : State) : Except FaultInfo State :=
  if s.ip.toNat + 8 > s.inp.length then .error (.inOverrun s.upc s.ip s.inp.length)
  else .ok { s with sb := fillSlot slot s.inp s.ip.toNat s.sb, ip := s.ip + 8#32 }

/-- `UPD slot` (R77). -/
def execUpd (slot : BitVec 2) (s : State) : Host.Outcome State Fault Refusal := runSequential (updEffect slot) s

end Sys2Proof.Machine
end

