-- ==== Sys2Proof/Machine/Mac.lean ====
section
/-!
DEFINITION. `MULSYM` and `MULCTR` (42_mac.md): exact integer arithmetic on each component, narrowed to a lane at the
end (R80).
-/
namespace Sys2Proof.Machine

/-- The elements `MULSYM x` checks, in the order of R81. -/
def mulsymReads (x : BitVec 5) : List Elem :=
  (List.range 7).map (fun k => Elem.creg (cregIndex (2 * k))) ++
  (List.range 8).flatMap fun l => (List.range 14).map fun t => Elem.sb (ring x (l + t))

/-- Term `k` of lane `l` for one component: the coefficient times the exact symmetric pre-add (R80, R81). -/
def symTerm (s : State) (x : BitVec 5) (part : Sample → S16) (l k : Nat) : Option Int :=
  match s.creg[cregIndex (2 * k)], s.sb[ring x (l + 13 - k)], s.sb[ring x (l + k)] with
  | some c, some new, some old => some (c.toInt * ((part new).toInt + (part old).toInt))
  | _, _, _ => none

/-- Lane `l` of `MULSYM x` (R81). -/
def symLane (s : State) (x : BitVec 5) (l : Nat) : Option Acc :=
  accOfInts (sumDefined 7 (symTerm s x Sample.re l)) (sumDefined 7 (symTerm s x Sample.im l))

/-- The effect of `MULSYM x` (R81). -/
def mulsymEffect (x : BitVec 5) (s : State) : Except FaultInfo State :=
  s.checkDefined (mulsymReads x) (.ok { s with acc0 := Vector.ofFn fun l => symLane s x l.val })

/-- `MULSYM x` (R81). -/
def execMulsym (x : BitVec 5) (s : State) : Host.Outcome State Fault Refusal := runSequential (mulsymEffect x) s

/-- The elements `MULCTR x` checks, in the order of R84. -/
def mulctrReads (x : BitVec 5) : List Elem :=
  Elem.creg (cregIndex 28) :: (List.range 8).map fun l => Elem.sb (ring x l)

/-- The product of lane `l` for one component (R84). -/
def ctrTerm (s : State) (x : BitVec 5) (part : Sample → S16) (l : Nat) : Option Int :=
  match s.creg[cregIndex 28], s.sb[ring x l] with
  | some c, some v => some (c.toInt * (part v).toInt)
  | _, _ => none

/-- Lane `l` of `MULCTR x` (R84). -/
def ctrLane (s : State) (x : BitVec 5) (l : Nat) : Option Acc :=
  accOfInts (ctrTerm s x Sample.re l) (ctrTerm s x Sample.im l)

/-- The effect of `MULCTR x` (R84). -/
def mulctrEffect (x : BitVec 5) (s : State) : Except FaultInfo State :=
  s.checkDefined (mulctrReads x) (.ok { s with acc1 := Vector.ofFn fun l => ctrLane s x l.val })

/-- `MULCTR x` (R84). -/
def execMulctr (x : BitVec 5) (s : State) : Host.Outcome State Fault Refusal := runSequential (mulctrEffect x) s

end Sys2Proof.Machine
end

