-- ==== Sys2Proof/Syntax.lean ====
section
/-!
DEFINITION. The micro-ops of HB27-2I (30_encoding.md R66, R68), one constructor per row of the opcode table.
-/
namespace Sys2Proof

/-- A micro-op with its operand field (R68, R69). -/
inductive Instr where
  | ldc                        -- R76
  | upd    (slot : BitVec 2)   -- R77, `SLOT`
  | mulsym (xoff : BitVec 5)   -- R81, `XOFF`
  | mulctr (xoff : BitVec 5)   -- R84, `XOFF`
  | srszip (sh : BitVec 5)     -- R92, `SH`, which must be 15
  | wr                         -- R94
  | loop   (tgt : UpcWord)     -- R96, `TGT`
  | done                       -- R97
  deriving DecidableEq, Repr

end Sys2Proof
end

