-- ==== Sys2Proof/WellFormed.lean ====
section
/-!
DEFINITION. Which micro-ops have a legal word. The operand types bound `SLOT`, `XOFF` and `TGT`; the one check left
is that `SH` is 15 (30_encoding.md R68, R72).
-/
namespace Sys2Proof

/-- The micro-op has a legal word (R68, R72). -/
def Instr.wf : Instr → Bool
  | .ldc => true
  | .upd _ => true
  | .mulsym _ => true
  | .mulctr _ => true
  | .srszip sh => sh == 15#5
  | .wr => true
  | .loop _ => true
  | .done => true

end Sys2Proof
end

