-- ==== Sys2Proof/Decode.lean ====
section
/-!
DEFINITION. The decoder, total on every 16-bit word (30_encoding.md R71), the encoder (R70), and the pseudo-instruction
`SUBSTEP` (R75).
-/
namespace Sys2Proof

/-- What the decoder answers: a micro-op, or `ILLEGAL` with the word (R71, R72). -/
inductive Decoded where
  | uop (i : Instr)
  | illegal (w : UopWord)
  deriving DecidableEq, Repr

/-- The field `OP`, bits 15:12 (R67). -/
def opField (w : UopWord) : BitVec 4 := w.extractLsb' 12 4

/-- The field `ARG`, bits 11:0 (R67). -/
def argField (w : UopWord) : BitVec 12 := w.extractLsb' 0 12

/-- The operand field of formats `X`, `H` and `T`: `ARG[4:0]` (R68). -/
def arg5 (w : UopWord) : BitVec 5 := w.extractLsb' 0 5

/-- The operand field of format `S`: `ARG[1:0]` (R68). -/
def arg2 (w : UopWord) : BitVec 2 := w.extractLsb' 0 2

/-- The reserved bits of formats `X` and `T`, `ARG[11:5]`, are 0 (R68). -/
def reserved5Clear (w : UopWord) : Bool := w.extractLsb' 5 7 == 0#7

/-- The reserved bits of format `S`, `ARG[11:2]`, are 0 (R68). -/
def reserved2Clear (w : UopWord) : Bool := w.extractLsb' 2 10 == 0#10

/-- The decoder of R71. -/
def decode (w : UopWord) : Decoded :=
  if opField w = 0x1#4 ∧ argField w = 0#12 then .uop .ldc
  else if opField w = 0x2#4 ∧ reserved2Clear w then .uop (.upd (arg2 w))
  else if opField w = 0x3#4 ∧ reserved5Clear w then .uop (.mulsym (arg5 w))
  else if opField w = 0x4#4 ∧ reserved5Clear w then .uop (.mulctr (arg5 w))
  else if opField w = 0x5#4 ∧ argField w = 0x00F#12 then .uop (.srszip (arg5 w))
  else if opField w = 0x6#4 ∧ argField w = 0#12 then .uop .wr
  else if opField w = 0x7#4 ∧ reserved5Clear w then .uop (.loop (arg5 w))
  else if opField w = 0x8#4 ∧ argField w = 0#12 then .uop .done
  else .illegal w

/-- The word of a micro-op, from the table of R70. -/
def encode : Instr → UopWord
  | .ldc => 0x1000#16
  | .upd s => 0x2000#16 ||| s.setWidth 16
  | .mulsym x => 0x3000#16 ||| x.setWidth 16
  | .mulctr x => 0x4000#16 ||| x.setWidth 16
  | .srszip sh => 0x5000#16 ||| sh.setWidth 16
  | .wr => 0x6000#16
  | .loop t => 0x7000#16 ||| t.setWidth 16
  | .done => 0x8000#16

/-- The expansion of the pseudo-instruction `SUBSTEP s, x` (R75). -/
def substep (s : BitVec 2) (x : BitVec 5) : List Instr :=
  [.upd s, .mulsym x, .mulctr (x + 7#5), .srszip 15#5, .wr]

/-- What the decoder reads from a word numbered as the opcode table numbers it: one 16-bit word, of which the table
gives the low `nbits` bits and the rest are 0. -/
def decodeTableWord (nbits w : Nat) : Option Instr :=
  match decode (BitVec.ofNat 16 (w % 2 ^ nbits)) with
  | .uop i => some i
  | .illegal _ => none

end Sys2Proof
end

