-- ==== Sys2Proof/Machine/Output.lean ====
section
/-!
DEFINITION. Shift-round-saturate, `SRSZIP` and `WR` (43_output.md).
-/
namespace Sys2Proof.Machine

/-- `a / 2^15` rounded to the nearest integer, ties by `SRS_ROUND` (R88, R89). -/
def roundShift (r : SrsRound) (a : Int) : Int :=
  let up := (a + 2 ^ 14) / 2 ^ 15
  if a % 2 ^ 15 = 2 ^ 14 then
    match r with
    | .halfUp => up
    | .halfEven => if up % 2 = 0 then up else up - 1
    | .halfAway => if a < 0 then up - 1 else up
  else up

/-- `sat16`, or the low 16 bits as a signed integer, by `SRS_SAT` (R88, R89). -/
def narrow16 (m : SrsSat) (v : Int) : Int :=
  match m with
  | .saturate => min 32767 (max (-32768) v)
  | .wrap => (v + 2 ^ 15) % 2 ^ 16 - 2 ^ 15

/-- `srs(a, 15)` (R88, R89). -/
def srs (r : SrsRound) (m : SrsSat) (a : Int) : Int := narrow16 m (roundShift r a)

/-- `srs` on both components of a lane (R92). -/
def srsLane (r : SrsRound) (m : SrsSat) (a : Acc) : Sample :=
  { re := BitVec.ofInt 16 (srs r m a.re.toInt), im := BitVec.ofInt 16 (srs r m a.im.toInt) }

/-- The elements `SRSZIP` checks, in the order of R92. -/
def srszipReads : List Elem := (List.finRange 8).flatMap fun l => [Elem.acc0 l, Elem.acc1 l]

/-- Element `n` of the 16-sample sequence `OV0 ++ OV1` that `SRSZIP` leaves: the filtered value of lane `n / 2` where
`n` is even, the pass-through value of that lane where it is odd (R92, R93). -/
def zipLane (s : State) (n : Nat) : Option Sample :=
  let l : Fin 8 := ⟨n / 2 % 8, Nat.mod_lt _ (by decide)⟩
  (if n % 2 = 0 then s.acc0[l] else s.acc1[l]).map (srsLane s.srsRound s.srsSat)

/-- The effect of `SRSZIP 15` (R92). -/
def srszipEffect (s : State) : Except FaultInfo State :=
  s.checkDefined srszipReads
    (.ok { s with ov0 := Vector.ofFn fun i => zipLane s i.val, ov1 := Vector.ofFn fun i => zipLane s (8 + i.val) })

/-- `SRSZIP sh`: with `sh` = 15 the effect of R92; a word with another `SH` is illegal (30_encoding.md R72). -/
def execSrszip (sh : BitVec 5) (s : State) : Host.Outcome State Fault Refusal :=
  if sh = 15#5 then runSequential srszipEffect s
  else takeFault (.illegalUop (encode (.srszip sh)) s.upc) s

/-- The elements `WR` checks, in the order of R94. -/
def wrReads : List Elem := (List.finRange 8).flatMap fun l => [Elem.ov0 l, Elem.ov1 l]

/-- The effect of `WR` (R94). -/
def wrEffect (s : State) : Except FaultInfo State :=
  s.checkDefined wrReads
    (if s.op.toNat + 16 > s.nout.toNat then .error (.outOverrun s.upc s.op s.nout)
     else .ok { s with out := s.out.writeFrom s.op.toNat (s.ov0.toList ++ s.ov1.toList), op := s.op + 16#32 })

/-- `WR` (R94). -/
def execWr (s : State) : Host.Outcome State Fault Refusal := runSequential wrEffect s

end Sys2Proof.Machine
end

