-- ==== Sys2Proof/Machine/Sequencing.lean ====
section
/-!
DEFINITION. `LOOP` and `DONE` (44_sequencing.md R96, R97), and the engine's fetch (R95).
-/
namespace Sys2Proof.Machine

/-- `LOOP t` (R96). -/
def execLoop (t : UpcWord) (s : State) : Host.Outcome State Fault Refusal :=
  if s.trip = 0#32 then takeFault (.badTrip s.upc) s
  else if s.trip - 1#32 ≠ 0#32 then .next { s with trip := s.trip - 1#32, upc := t }
  else if s.upc = 31#5 then takeFault (.upcOverflow s.upc) s
  else .next { s with trip := 0#32, upc := s.upc + 1#5 }

/-- `DONE` (R97). -/
def execDone (s : State) : Host.Outcome State Fault Refusal := .next { s with status := statusCompleted s.status }

/-- What the engine finds at its turn: no step, an illegal word, or a micro-op. -/
inductive Fetched where
  | noStep (r : Fault)
  | illegal (w : UopWord)
  | uop (i : Instr)
  deriving DecidableEq, Repr

/-- The word the engine fetches next: `UPROG[upc]` (20_memory.md R49). -/
def State.fetchWord (s : State) : UopWord := s.uprog[s.upc.toNat]'s.upc.isLt

/-- The fetch: the engine has a step exactly when BUSY = 1 and FAULT = 0 (R95). -/
def fetch (s : State) : Fetched :=
  if s.status.fault then .noStep .stopped
  else if !s.status.busy then .noStep .idle
  else
    match decode s.fetchWord with
    | .uop i => .uop i
    | .illegal w => .illegal w

/-- `ILLEGAL_UOP` with the word recorded (R95, 30_encoding.md R72). -/
def takeIllegal (w : UopWord) (s : State) : Host.Outcome State Fault Refusal := takeFault (.illegalUop w s.upc) s

end Sys2Proof.Machine
end

