-- ==== Sys2Proof/Machine/Dispatch.lean ====
section
/-!
DEFINITION. The meaning of every micro-op, one arm per constructor.
-/
namespace Sys2Proof.Machine

def exec (i : Instr) (s : State) : Host.Outcome State Fault Refusal :=
  match i with
  | .ldc => Sys2Proof.Machine.execLdc s
  | .upd slot => Sys2Proof.Machine.execUpd slot s
  | .mulsym xoff => Sys2Proof.Machine.execMulsym xoff s
  | .mulctr xoff => Sys2Proof.Machine.execMulctr xoff s
  | .srszip sh => Sys2Proof.Machine.execSrszip sh s
  | .wr => Sys2Proof.Machine.execWr s
  | .loop tgt => Sys2Proof.Machine.execLoop tgt s
  | .done => Sys2Proof.Machine.execDone s

end Sys2Proof.Machine
end

