-- ==== Sys2Proof/Machine/HostPort.lean ====
section
/-!
DEFINITION. The host's moves (60_exceptions.md R126): registers, START, the buffers and reset.
-/
namespace Sys2Proof.Machine

/-- An accepted START (44_sequencing.md R99). -/
def State.begin (s : State) : State :=
  { s with
    status := statusStarted s.status
    upc := 0#5
    trip := BitVec.ofNat 32 (s.nout.toNat / 64)
    ip := 0#32
    op := 0#32
    creg := Vector.replicate 32 none
    sb := Vector.replicate 32 none
    acc0 := Vector.replicate 8 none
    acc1 := Vector.replicate 8 none
    ov0 := Vector.replicate 8 none
    ov1 := Vector.replicate 8 none
    out := []
    doneSeen := false }

/-- `NOUT` is a positive multiple of 64 (R98). -/
def legalNout (n : RegWord) : Bool := n != 0#32 && n.toNat % 64 == 0

/-- A START with an illegal `NOUT`: `BAD_NOUT`, DONE cleared, nothing started (R98). -/
def State.rejectStart (s : State) : State :=
  { s with status := { s.status with done := false }, doneSeen := false }.raise (.badNout s.nout)

/-- A host write of 1 to `CTRL.START`, in the order of R98. -/
def hostStart (s : State) : Host.Outcome State Fault Refusal :=
  if s.status.busy then .refused .startWhileBusy
  else if s.status.fault then .next s
  else if legalNout s.nout then .next s.begin
  else .next s.rejectStart

/-- A host write to `NOUT`: stored while BUSY = 0, ignored while BUSY = 1 (10_state.md R29). -/
def State.writeNout (s : State) (v : RegWord) : State := if s.status.busy then s else { s with nout := v }

/-- A host write of a register (R26 to R29): only bit 0 of `CTRL` and `NOUT` take a write. -/
def hostWriteReg (r : Nat) (v : RegWord) (s : State) : Host.Outcome State Fault Refusal :=
  match r with
  | 0 => if v.getLsbD 0 then hostStart s else .next s
  | 2 => .next (s.writeNout v)
  | _ => .next s

/-- The value a host read of register `r` returns (R26 to R29). -/
def State.readReg (s : State) (r : Nat) : RegWord :=
  match r with
  | 1 => statusWord s.status
  | 2 => s.nout
  | _ => 0#32

/-- A host read of a register: no effect on the block (20_memory.md R57). The model notes the value given back and
whether the host has now seen DONE = 1 (R61). -/
def hostReadReg (r : Nat) (s : State) : Host.Outcome State Fault Refusal :=
  .next { s with reply := some (.reg (s.readReg r)), doneSeen := s.doneSeen || (r == 1 && s.status.done) }

/-- The host fills the input window (R126); it has no such move while BUSY = 1 (70_reset_and_hazards.md R136). -/
def hostFillIn (window : List Sample) (s : State) : Host.Outcome State Fault Refusal :=
  if s.status.busy then .refused .fillWhileBusy
  else if 2 ^ 32 ≤ window.length then .refused .windowTooLong
  else .next { s with inp := window }

/-- The host fills the input window through the byte view (R51). -/
def hostFillInBytes (bytes : List Byte) (s : State) : Host.Outcome State Fault Refusal :=
  match windowOfBytes bytes with
  | some w => hostFillIn w s
  | none => .refused .partialSample

/-- What a host read of `OUT[i]` is defined to give: the sample written, once the host has read DONE = 1 (R61, R126);
no defined value before, nor for an element that is `⊥` (R47, R136). -/
def State.outDefined (s : State) (i : Nat) : Option Sample :=
  if s.status.done && s.doneSeen then s.out.read i else none

/-- A host read at sample `i` of `OUT`, giving back `view` of it. Where the spec defines no value the answer is a free
value (93 V8), the next one of the instance's own stream (log 10); `OUT` has `NOUT` elements (R44). -/
def hostReadOutAs (view : Sample → Reply) (i : Nat) (s : State) : Host.Outcome State Fault Refusal :=
  if s.nout.toNat ≤ i then .fault .outIndexOutside
  else
    match s.outDefined i with
    | some v => .next { s with reply := some (view v) }
    | none =>
      .next { s with
        reply := some (view (Config.freeSample s.freeStream s.freeCount))
        freeCount := s.freeCount + 1 }

/-- A host read of `OUT[i]` (R126). -/
def hostReadOut (i : Nat) (s : State) : Host.Outcome State Fault Refusal := hostReadOutAs Reply.sample i s

/-- A host read of byte `k` of `OUT`: byte `k mod 4` of sample `k / 4` (R51). -/
def hostReadOutByte (k : Nat) (s : State) : Host.Outcome State Fault Refusal :=
  hostReadOutAs (fun v => .byte (byteOf (packSample v) (k % 4))) (k / 4) s

/-- Reset, in any state (R132, R133): the "after reset" column of 10_state.md R43. The constants stay; the host's
window, the written elements of `OUT` and the model's own record of turns and replies are not the block's to reset. -/
def State.applyReset (s : State) : State :=
  { State.reset with
    coeffRom := s.coeffRom
    uprog := s.uprog
    srsRound := s.srsRound
    srsSat := s.srsSat
    inp := s.inp
    out := s.out
    turns := s.turns
    reply := s.reply
    freeCount := s.freeCount
    freeStream := s.freeStream }

/-- A host move. -/
def hostMove (a : HostAction) (s : State) : Host.Outcome State Fault Refusal :=
  match a with
  | .writeReg r v => hostWriteReg r v s
  | .readReg r => hostReadReg r s
  | .fillIn w => hostFillIn w s
  | .fillInBytes b => hostFillInBytes b s
  | .readOut i => hostReadOut i s
  | .readOutByte k => hostReadOutByte k s
  | .reset => .next s.applyReset

/-- Whose turn it is, and the state with that turn taken off the list (R123); the engine's where none is listed. -/
def State.takeTurn (s : State) : Turn × State :=
  match s.turns with
  | [] => (.engine, s)
  | t :: rest => (t, { s with turns := rest })

end Sys2Proof.Machine
end

