-- ==== Sys2Proof/Machine/Step.lean ====
section
/-!
DEFINITION. One step of the machine: the engine's step (44_sequencing.md R95) or one host move (60_exceptions.md R126),
whichever has its turn (R123).
-/
namespace Sys2Proof.Machine

/-- The engine's step (R95). -/
def engineStep (s : State) : Host.Outcome State Fault Refusal :=
  match fetch s with
  | .noStep r => .fault r
  | .illegal w => takeIllegal w s
  | .uop i => exec i s

/-- One step: the engine or the host moves, as `turns` says. -/
def step (s : State) : Host.Outcome State Fault Refusal :=
  match s.takeTurn with
  | (.engine, t) => engineStep t
  | (.host a, t) => hostMove a t

/-- `s` with a micro-op word at `UPROG[upc]`, the engine busy and unfaulted, and the next turn the engine's, so that
the very next step runs that word. -/
def State.withFetchWord (s : State) (nbits w : Nat) : State :=
  { s with
    uprog := s.uprog.set s.upc.toNat (BitVec.ofNat 16 (w % 2 ^ nbits)) s.upc.isLt
    status := { busy := true, done := false, fault := false, fcode := 0#4 }
    faultInfo := none
    turns := [] }

end Sys2Proof.Machine
end

