-- ==== Sys2Proof/Machine/Assembler.lean ====
section
/-!
DEFINITION. The assembler syntax of 30_encoding.md R74 and the pseudo-instruction of R75: from source text to the
micro-ops it names, and from micro-ops to the contents of `UPROG`.
-/
namespace Sys2Proof.Machine

/-- Source text, character by character. -/
abbrev Text := List Char

/-- An assembly error: an operand out of its field's range is one, not an illegal word (R74). -/
inductive AsmError where
  | badLine          -- no mnemonic of R74 with this many operands
  | badOperand       -- neither a number nor, for `LOOP`, a label of the program
  | outOfRange       -- a number its field does not hold, or a shift other than 15
  | programTooLong   -- more than 32 micro-ops
  deriving DecidableEq, Repr

/-- The pieces of a text between the occurrences of a character. -/
def splitAt (c : Char) : Text → List Text
  | [] => [[]]
  | x :: xs =>
    match splitAt c xs with
    | [] => []
    | l :: ls => if x = c then [] :: l :: ls else (x :: l) :: ls

/-- The words of a line without its comment: a comma is a word of its own, and a colon ends one. -/
def wordsOfLine (t : Text) : List Text :=
  let spaced := (t.takeWhile (· ≠ ';')).flatMap fun c =>
    if c = ',' then [' ', ',', ' '] else if c = ':' then [':', ' '] else if c.isWhitespace then [' '] else [c]
  (splitAt ' ' spaced).filter fun w => !w.isEmpty

/-- The value of a digit in a base up to 16. -/
def digitValue (base : Nat) (c : Char) : Option Nat :=
  let v :=
    if '0' ≤ c ∧ c ≤ '9' then some (c.toNat - '0'.toNat)
    else if 'a' ≤ c ∧ c ≤ 'f' then some (c.toNat - 'a'.toNat + 10)
    else if 'A' ≤ c ∧ c ≤ 'F' then some (c.toNat - 'A'.toNat + 10)
    else none
  v.filter (· < base)

/-- The value of a string of digits, read after the value `acc`. -/
def digitsValue (base : Nat) : Nat → Text → Option Nat
  | acc, [] => some acc
  | acc, c :: cs => (digitValue base c).bind fun d => digitsValue base (acc * base + d) cs

/-- A number in decimal, or in hexadecimal after `0x` (R74). -/
def numberOf : Text → Option Nat
  | [] => none
  | ['0', 'x'] => none
  | '0' :: 'x' :: cs => digitsValue 16 0 cs
  | cs => digitsValue 10 0 cs

/-- A numeric operand of an `n`-bit field (R69, R74). -/
def fieldOperand (n : Nat) (t : Text) : Except AsmError (BitVec n) :=
  match numberOf t with
  | none => .error .badOperand
  | some v => if v < 2 ^ n then .ok (BitVec.ofNat n v) else .error .outOfRange

/-- A line's words after its label, if it begins with one (R74). Any text that ends in a colon is one, whatever its name:
the empty name and a mnemonic too (log 17, DESIGN CHOICE: R74 gives only `name:`). -/
def bodyOf : List Text → List Text
  | [] => []
  | w :: ws => if w.getLast? = some ':' then ws else w :: ws

/-- How many micro-ops a line stands for (R74, R75): none where it has no micro-op (log 17, DESIGN CHOICE). -/
def sizeOfBody : List Text → Nat
  | [] => 0
  | w :: _ => if w = "SUBSTEP".toList then 5 else 1

/-- The labels of a program and the `upc` each names, the first line standing at `at0`. A label alone on its line names
the next micro-op, and any text before the colon is a name (log 17, DESIGN CHOICE). -/
def labelsOf : Nat → List (List Text) → List (Text × Nat)
  | _, [] => []
  | at0, l :: ls =>
    let here := match l with
      | w :: _ => if w.getLast? = some ':' then [(w.dropLast, at0)] else []
      | [] => []
    here ++ labelsOf (at0 + sizeOfBody (bodyOf l)) ls

/-- The operand of `LOOP`: a number, or a label of the program (R74). -/
def loopOperand (labels : List (Text × Nat)) (t : Text) : Except AsmError UpcWord :=
  match labels.lookup t with
  | some v => if v < 32 then .ok (BitVec.ofNat 5 v) else .error .outOfRange
  | none => fieldOperand 5 t

/-- The operand of `SRSZIP`: a shift other than 15 is out of range (R74). -/
def shiftOperand (t : Text) : Except AsmError (BitVec 5) :=
  match numberOf t with
  | none => .error .badOperand
  | some v => if v = 15 then .ok 15#5 else .error .outOfRange

/-- The micro-ops of one line (R74, R75). A line that is blank, or holds only a comment or a label, is accepted and has
none (log 17, DESIGN CHOICE: R74 says only one micro-op per line). -/
def assembleLine (labels : List (Text × Nat)) : List Text → Except AsmError (List Instr)
  | [] => .ok []
  | [m] =>
    if m = "LDC".toList then .ok [.ldc]
    else if m = "WR".toList then .ok [.wr]
    else if m = "DONE".toList then .ok [.done]
    else .error .badLine
  | [m, a] =>
    if m = "UPD".toList then (fieldOperand 2 a).map fun s => [.upd s]
    else if m = "MULSYM".toList then (fieldOperand 5 a).map fun x => [.mulsym x]
    else if m = "MULCTR".toList then (fieldOperand 5 a).map fun x => [.mulctr x]
    else if m = "SRSZIP".toList then (shiftOperand a).map fun h => [.srszip h]
    else if m = "LOOP".toList then (loopOperand labels a).map fun t => [.loop t]
    else .error .badLine
  | [m, a, comma, b] =>
    if m = "SUBSTEP".toList ∧ comma = [','] then
      (fieldOperand 2 a).bind fun s => (fieldOperand 5 b).map fun x => substep s x
    else .error .badLine
  | _ => .error .badLine

/-- The micro-ops of the lines, in order. -/
def assembleLines (labels : List (Text × Nat)) : List (List Text) → Except AsmError (List Instr)
  | [] => .ok []
  | l :: ls =>
    match assembleLine labels (bodyOf l), assembleLines labels ls with
    | .ok a, .ok b => .ok (a ++ b)
    | .error e, _ => .error e
    | _, .error e => .error e

/-- The micro-ops of a source text, one micro-op a line (R74). -/
def assemble (source : Text) : Except AsmError (List Instr) :=
  let lines := (splitAt '\n' source).map wordsOfLine
  assembleLines (labelsOf 0 lines) lines

/-- The contents of `UPROG` for a list of micro-ops, filled up with 0x0000 (44_sequencing.md R100, R101). -/
def uprogOf (is : List Instr) : Except AsmError (Vector UopWord 32) :=
  if is.length ≤ 32 then .ok (Vector.ofFn fun k => (is[k.val]?.map encode).getD 0#16)
  else .error .programTooLong

end Sys2Proof.Machine
end

