-- ==== Sys2Proof/Machine/Platform.lean ====
section
/-!
DEFINITION. A platform with several instances of the block (60_exceptions.md R129): each has its own state, none is
shared but the read-only table, and each moves on its own. Also what a platform's map makes of its events (R58, R133).
-/
namespace Sys2Proof.Machine

/-- The instances of a platform, in no order that means anything (R129). -/
structure Platform where
  instances : List State
  deriving DecidableEq, Repr

/-- The platform after reset: `N_INSTANCES` blocks with the same built-in contents (R11, R129), each with a stream of
free values of its own, so that no two copies' undefined reads are known to agree (log 10). -/
def Platform.reset : Platform :=
  { instances := (List.range Config.nInstances).map fun k => { State.reset with freeStream := k } }

/-- One step of instance `k`, if there is one: the others do not change (R129). -/
def Platform.stepAt (p : Platform) (k : Nat) : Option (Host.Outcome Platform Fault Refusal) :=
  p.instances[k]?.map fun s =>
    match step s with
    | .next t => .next { instances := p.instances.set k t }
    | .fault r => .fault r
    | .refused r => .refused r

/-! ## `PLATFORM_MAP` (20_memory.md R58, 70_reset_and_hazards.md R133) -/

/-- The register at a platform address. -/
def registerAt (p : PlatformMap) (address : Nat) : Option Nat :=
  if address = p.ctrlAddr then some 0
  else if address = p.statusAddr then some 1
  else if address = p.noutAddr then some 2
  else none

/-- The host move that a platform event is: reset where the map says so (R133), else an access to the register at the
event's address; none where the event does not concern the block. -/
def platformMove (p : PlatformMap) (e : PlatformEvent) : Option HostAction :=
  if e ∈ p.resetBy then some .reset
  else
    match e with
    | .signal _ => none
    | .read address => (registerAt p address).map .readReg
    | .write address v => (registerAt p address).map fun r => .writeReg r v

/-- What a platform event does to the block: its host move, or nothing. -/
def platformEvent (p : PlatformMap) (e : PlatformEvent) (s : State) : Host.Outcome State Fault Refusal :=
  match platformMove p e with
  | some a => hostMove a s
  | none => .next s

/-- The platform address of sample `i` of the input window (R51). -/
def inAddress (p : PlatformMap) (i : Nat) : Nat := p.inBase + 4 * i

/-- The platform address of sample `i` of `OUT` (R51). -/
def outAddress (p : PlatformMap) (i : Nat) : Nat := p.outBase + 4 * i

/-- The platform address of coefficient `i` of the table (R51). -/
def coeffAddress (p : PlatformMap) (i : Nat) : Nat := p.romBase + 2 * i

end Sys2Proof.Machine
end

