-- ==== Sys2Proof/Safety.lean ====
section
/-!
DEFINITION. The terms in which claims about HB27-2I are stated: the premises on the table and on a launch, final
states, the closed form of one invocation (45_invocation.md), and the invariants.
-/
namespace Sys2Proof.Safety
open Sys2Proof.Machine

/-! ## Premises on the coefficient table (00_scope.md R13 to R15) -/

/-- `C[i]` as an integer, `C` being `COEFF_ROM`; indices past the table are no taps. -/
def tap (rom : Vector S16 31) (i : Nat) : Int := if h : i < 31 then rom[i].toInt else 0

/-- `ROM_SYMMETRIC` (R13). -/
abbrev RomSymmetric (c : Vector S16 31) : Prop := ∀ i < 13, tap c i = tap c (26 - i)

/-- `ROM_HALFBAND` (R14). -/
abbrev RomHalfband (c : Vector S16 31) : Prop := ∀ i < 26, i % 2 = 1 → i ≠ 13 → tap c i = 0

/-- `ROM_CENTRE` (R15). -/
abbrev RomCentre (c : Vector S16 31) : Prop := tap c 13 = 32767 ∧ tap c 28 = 32767

/-! ## Launch and result -/

/-- `CLEAN_LAUNCH` (70_reset_and_hazards.md R135), for `NOUT` = 64 * T, with `BUF_ALIGN` and `PLATFORM_MAP` given. -/
structure CleanLaunch (bufAlign : Nat) (p : PlatformMap) (tripCount : Nat) (s : State) : Prop where
  idle : statusWord s.status = 0#32 ∨ statusWord s.status = 2#32
  nout : s.nout.toNat = 64 * tripCount
  positive : 1 ≤ tripCount
  window : 16 + 32 * tripCount ≤ s.inp.length
  uprog : s.uprog = defaultUprog
  aligned : p.Aligned bufAlign

/-- A final state: completed and not faulted (44_sequencing.md R103). -/
abbrev Final (s : State) : Prop := s.status.done = true ∧ s.status.fault = false

/-- The host's result at a final state: `OUT[0..NOUT-1]` (R103). -/
def result (s : State) : List (Option Sample) := (List.range s.nout.toNat).map s.out.read

/-! ## The closed form of one invocation (45_invocation.md R105) -/

/-- One component of `IN[m]` as an integer; the closed form reads it for `m < LIN` only. -/
def inComp (part : Sample → S16) (inp : List Sample) (m : Nat) : Int :=
  if h : m < inp.length then (part inp[m]).toInt else 0

/-- The exact sum of the filtered output of pair `j` (R105). -/
def evenSum (c : Vector S16 31) (x : Nat → Int) (j : Nat) : Int :=
  ∑ k ∈ Finset.range 7, tap c (2 * k) * (x (16 + j - k) + x (3 + j + k))

/-- The exact product of the pass-through output of pair `j` (R105). -/
def oddProduct (c : Vector S16 31) (x : Nat → Int) (j : Nat) : Int := tap c 28 * x (10 + j)

/-- One component of `OUT[q]` before the shift: even outputs are filtered, odd outputs pass through (R105). -/
def exactOut (c : Vector S16 31) (x : Nat → Int) (q : Nat) : Int :=
  if q % 2 = 0 then evenSum c x (q / 2) else oddProduct c x (q / 2)

/-- `OUT[q]` of a completed invocation (R105). -/
def closedOut (r : SrsRound) (m : SrsSat) (c : Vector S16 31) (inp : List Sample) (q : Nat) : Sample :=
  { re := BitVec.ofInt 16 (srs r m (exactOut c (inComp Sample.re inp) q))
    im := BitVec.ofInt 16 (srs r m (exactOut c (inComp Sample.im inp) q)) }

/-- The zero-stuffed input `u` (R108). -/
def zeroStuffed (x : Nat → Int) (p : Nat) : Int := if p % 2 = 0 then x (p / 2) else 0

/-- The 27-tap filter applied to `u` at output `q` (R108). -/
def filter27 (c : Vector S16 31) (u : Nat → Int) (q : Nat) : Int :=
  ∑ i ∈ Finset.range 27, tap c i * u (32 + q - i)

/-! ## What a micro-op's meaning answers -/

/-- The micro-op completes: it answers a next state, of which `P` holds. -/
def Completes (i : Instr) (s : State) (P : State → Prop) : Prop := ∃ t, exec i s = .next t ∧ P t

/-- `t` is `s` with a fault raised (60_exceptions.md R117, R118): BUSY 0, FAULT 1, FCODE and the info as given, DONE and
everything else unchanged. -/
def FaultState (s : State) (code : BitVec 4) (f : FaultInfo) (t : State) : Prop :=
  t.status = { busy := false, done := s.status.done, fault := true, fcode := code } ∧ t.faultInfo = some f ∧
  { t with status := s.status, faultInfo := s.faultInfo } = s

/-- The micro-op takes a fault. -/
def TakesFault (i : Instr) (s : State) (code : BitVec 4) (f : FaultInfo) : Prop :=
  Completes i s (FaultState s code f)

/-- What the sequencer does in the step of a micro-op that takes no fault (44_sequencing.md R95 to R97): `LOOP` counts
`TRIP` down and branches, or falls through at the last iteration; `DONE` completes where it stands; every other micro-op
advances `upc` from a place below 31. -/
def SequencerMoves (i : Instr) (s t : State) : Prop :=
  match i with
  | .loop tgt => s.trip ≠ 0#32 ∧ t.trip = s.trip - 1#32 ∧ t.upc = (if s.trip = 1#32 then s.upc + 1#5 else tgt) ∧
      t.status = s.status
  | .done => t.trip = s.trip ∧ t.upc = s.upc ∧ t.status = { s.status with busy := false, done := true }
  | .ldc | .upd _ | .mulsym _ | .mulctr _ | .srszip _ | .wr =>
      s.upc ≠ 31#5 ∧ t.upc = s.upc + 1#5 ∧ t.trip = s.trip ∧ t.status = s.status

/-- The rows of the opcode map as (match, mask) pairs (30_encoding.md R70). -/
def opcodeRows : List (UopWord × UopWord) :=
  [(0x1000, 0xFFFF), (0x2000, 0xFFFC), (0x3000, 0xFFE0), (0x4000, 0xFFE0), (0x500F, 0xFFFF), (0x6000, 0xFFFF),
   (0x7000, 0xFFE0), (0x8000, 0xFFFF)]

/-- The row of a micro-op's kind (R70). -/
def opcodeRow : Instr → UopWord × UopWord
  | .ldc => (0x1000, 0xFFFF)
  | .upd _ => (0x2000, 0xFFFC)
  | .mulsym _ => (0x3000, 0xFFE0)
  | .mulctr _ => (0x4000, 0xFFE0)
  | .srszip _ => (0x500F, 0xFFFF)
  | .wr => (0x6000, 0xFFFF)
  | .loop _ => (0x7000, 0xFFE0)
  | .done => (0x8000, 0xFFFF)

/-- The word selects the row (R70). -/
def selects (w : UopWord) (row : UopWord × UopWord) : Bool := w &&& row.2 == row.1

/-! ## The invariant of every step -/

/-- What every step of the machine keeps, whatever the microprogram. -/
structure Inv (s : State) : Prop where
  /-- `OUT` is in its canonical form. -/
  memory : s.out.wf = true
  /-- At most one of BUSY, DONE and FAULT is 1 (10_state.md R28). -/
  exclusive : ¬(s.status.busy = true ∧ s.status.done = true) ∧ ¬(s.status.busy = true ∧ s.status.fault = true) ∧
    ¬(s.status.done = true ∧ s.status.fault = true)
  /-- FCODE is the code of the fault while FAULT is 1, 0 otherwise (R28, R116); and the model's record of the fault is kept
  exactly while FAULT is 1 (log 19). -/
  faultCoded : s.status.fault = s.faultInfo.isSome ∧ s.status.fcode = (s.faultInfo.map faultCode).getD 0#4
  /-- `IP` is a multiple of 8 and `OP` a multiple of 16 (20_memory.md R53). -/
  pointers : s.ip.toNat % 8 = 0 ∧ s.op.toNat % 16 = 0
  /-- While BUSY: `NOUT` is legal, the pointers stay within the buffers, `TRIP` within its start value, and nothing is
  written at or past `OP` (R45, R47, R99). -/
  running : s.status.busy = true → legalNout s.nout = true ∧ s.ip.toNat ≤ s.inp.length ∧ s.op.toNat ≤ s.nout.toNat ∧
    s.trip.toNat ≤ s.nout.toNat / 64 ∧ ∀ i, s.op.toNat ≤ i → s.out.read i = none
  /-- The window's length fits 32 bits: the model's choice (log 13), `LIN` having no width in the spec. -/
  window : s.inp.length < 2 ^ 32
  /-- `CREG` is all `⊥` or the loaded table (R34, R76). -/
  coefficients : s.creg = Vector.replicate 32 none ∨ s.creg = loadedCreg s.coeffRom
  /-- The host has seen DONE only if it is 1: about the model's own record (log 4). -/
  seen : s.doneSeen = true → s.status.done = true

/-! ## The invariant of the default microprogram (41 R79, 42 R87, 44 R104, 45 R105) -/

/-- How many outer iterations are complete: `TRIP` counts the rest. -/
def iterations (s : State) : Nat := s.nout.toNat / 64 - s.trip.toNat

/-- How many `WR` the invocation has executed when the engine is at `upc`. -/
def wrCount (s : State) : Nat := 4 * iterations s + (if s.upc.toNat = 24 then 0 else (s.upc.toNat - 3) / 5)

/-- How far the current sub-step is, 0 to 4: 1 after its `UPD`, 2 after `MULSYM`, 3 after `MULCTR`, 4 after `SRSZIP`. -/
def phase (s : State) : Nat := if s.upc.toNat ≤ 22 then (s.upc.toNat - 3) % 5 else 0

/-- How many `UPD` the invocation has executed when the engine is at `upc`. -/
def updCount (s : State) : Nat :=
  if s.upc.toNat ≤ 2 then s.upc.toNat - 1 else 2 + wrCount s + (if phase s = 0 then 0 else 1)

/-- Engine steps left until DONE, that of `DONE` included (R104). -/
def stepsLeft (s : State) : Nat := (25 - s.upc.toNat) + 21 * (s.trip.toNat - 1)

/-- What holds between two steps of an invocation of the default microprogram. -/
structure Progress (s : State) : Prop where
  /-- The engine stays in the 25 words, with iterations to do up to word 23 and none at word 24. -/
  place : s.upc.toNat ≤ 24 ∧ (s.upc.toNat ≤ 23 → 1 ≤ s.trip.toNat) ∧ (s.upc.toNat = 24 → s.trip.toNat = 0) ∧
    s.trip.toNat ≤ s.nout.toNat / 64 ∧ (s.upc.toNat ≤ 2 → s.trip.toNat = s.nout.toNat / 64)
  /-- `NOUT` is legal (R98). -/
  legal : legalNout s.nout = true
  /-- `IP` and `OP` count the groups read and written (R77, R94). -/
  pointers : s.ip.toNat = 8 * updCount s ∧ s.op.toNat = 16 * wrCount s ∧ s.ip.toNat ≤ s.inp.length
  /-- `CREG` holds the table once `LDC` has run (R76). -/
  loaded : 1 ≤ s.upc.toNat → s.creg = loadedCreg s.coeffRom
  /-- The buffer holds the most recent 32 samples read, in stream order modulo 32 (R79). -/
  buffer : ∀ m (h : m % 32 < 32), m < s.ip.toNat → s.ip.toNat ≤ m + 32 → s.sb[m % 32] = s.inp[m]?
  /-- After `MULSYM`, lane `l` holds the exact sum of output pair 8g + l (R81, R105). -/
  filtered : 2 ≤ phase s → ∀ l (h : l < 8), ∃ a, s.acc0[l] = some a ∧
    a.re.toInt = evenSum s.coeffRom (inComp Sample.re s.inp) (8 * wrCount s + l) ∧
    a.im.toInt = evenSum s.coeffRom (inComp Sample.im s.inp) (8 * wrCount s + l)
  /-- After `MULCTR`, lane `l` holds the exact product of output pair 8g + l (R84, R105). -/
  passed : 3 ≤ phase s → ∀ l (h : l < 8), ∃ a, s.acc1[l] = some a ∧
    a.re.toInt = oddProduct s.coeffRom (inComp Sample.re s.inp) (8 * wrCount s + l) ∧
    a.im.toInt = oddProduct s.coeffRom (inComp Sample.im s.inp) (8 * wrCount s + l)
  /-- After `SRSZIP`, the staging vectors hold the next 16 outputs in order (R92, R93, R105). -/
  staged : phase s = 4 → ∀ i (h : i < 8),
    s.ov0[i] = some (closedOut s.srsRound s.srsSat s.coeffRom s.inp (16 * wrCount s + i)) ∧
    s.ov1[i] = some (closedOut s.srsRound s.srsSat s.coeffRom s.inp (16 * wrCount s + 8 + i))
  /-- Every element of `OUT` below `OP` is the closed form's, and no other is written (R47, R105). -/
  written : ∀ q, s.out.read q =
    if q < s.op.toNat then some (closedOut s.srsRound s.srsSat s.coeffRom s.inp q) else none

/-- The block has its default microprogram, and a running invocation is on the way to the closed form. -/
def Tracks (s : State) : Prop := s.uprog = defaultUprog ∧ (s.status.busy = true → Progress s)

end Sys2Proof.Safety
end

