-- ==== Sys2Proof/Certificates/Slice0/Obligations.lean ====
section
/-!
DEFINITION. The statements about HB27-2I for the provers.
-/
open Sys2Proof Sys2Proof.Machine Sys2Proof.Safety

/-! ## Encoding -/

/-- 30 R70, R71: a word decodes to a micro-op exactly when the micro-op is legal and the word is its
encoding; so decoding an encoded legal micro-op gives it back, and no word has two meanings. -/
def Obligations.DecodeIffEncode : Prop :=
  ∀ (w : UopWord) (i : Instr), decode w = .uop i ↔ (i.wf = true ∧ encode i = w)

/-- R70: every legal word selects exactly one row of the opcode map, that of the micro-op it decodes to, and an illegal
word, which the decoder hands back, selects none. -/
def Obligations.LegalWordsSelectOneRow : Prop :=
  (∀ (w : UopWord) (i : Instr), decode w = .uop i → opcodeRows.filter (selects w) = [opcodeRow i]) ∧
  (∀ w v : UopWord, decode w = .illegal v → v = w ∧ opcodeRows.filter (selects w) = [])

/-- R72: a word is illegal when `OP` is 0 or 9 to 15, a reserved bit of `ARG` is set, or it is an `SRSZIP` word whose
`SH` is not 15. -/
def Obligations.IllegalWordsAreTheReserved : Prop :=
  ∀ w : UopWord, (∃ v, decode w = .illegal v) ↔
    (w.toNat / 4096 = 0 ∨ 9 ≤ w.toNat / 4096 ∨
      (w.toNat / 4096 ∈ [1, 6, 8] ∧ w.toNat % 4096 ≠ 0) ∨
      (w.toNat / 4096 = 2 ∧ w.toNat % 4096 / 4 ≠ 0) ∨
      (w.toNat / 4096 ∈ [3, 4, 7] ∧ w.toNat % 4096 / 32 ≠ 0) ∨
      (w.toNat / 4096 = 5 ∧ (w.toNat % 4096 / 32 ≠ 0 ∨ w.toNat % 32 ≠ 15)))

/-- 95_test_vectors.md 3.1: words of every kind, written out bit by bit from R70, decode to the micro-op they stand for. -/
def Obligations.SpecWordsDecode : Prop :=
  decode 0b0001000000000000#16 = .uop .ldc ∧
  decode 0b0010000000000011#16 = .uop (.upd 3#2) ∧
  decode 0b0011000000011111#16 = .uop (.mulsym 31#5) ∧
  decode 0b0100000000011100#16 = .uop (.mulctr 28#5) ∧
  decode 0b0101000000001111#16 = .uop (.srszip 15#5) ∧
  decode 0b0110000000000000#16 = .uop .wr ∧
  decode 0b0111000000000011#16 = .uop (.loop 3#5) ∧
  decode 0b1000000000000000#16 = .uop .done ∧
  decode 0b0010000000000100#16 = .illegal 0x2004#16 ∧
  decode 0b0101000000001110#16 = .illegal 0x500E#16

/-- R75: `SUBSTEP s, x` stands for five micro-ops, the `MULCTR` offset being `(x + 7) mod 32`. -/
def Obligations.SubstepExpands : Prop :=
  ∀ (s : BitVec 2) (x y : BitVec 5), y.toNat = (x.toNat + 7) % 32 →
    substep s x = [.upd s, .mulsym x, .mulctr y, .srszip 15#5, .wr]

/-! ## The engine's step -/

/-- 44_sequencing.md R95: at the engine's turn, a busy and unfaulted engine whose word at `upc` decodes to a micro-op
takes exactly that micro-op's step; the turn list loses the turn it used. -/
def Obligations.StepRunsTheDecodedMicroOp : Prop :=
  ∀ (s : State) (i : Instr), s.status.busy = true → s.status.fault = false →
    decode (s.uprog[s.upc.toNat]'s.upc.isLt) = .uop i →
    (s.turns = [] → step s = exec i s) ∧
    (∀ rest, s.turns = .engine :: rest → step s = exec i { s with turns := rest })

/-- R95, R72: fetching an illegal word raises `ILLEGAL_UOP` with the word recorded, whether the engine's turn is listed or
no turn is. -/
def Obligations.IllegalWordFaultsOnFetch : Prop :=
  ∀ (s : State) (w : UopWord), s.status.busy = true → s.status.fault = false →
    decode (s.uprog[s.upc.toNat]'s.upc.isLt) = .illegal w →
    (s.turns = [] → ∃ t, step s = .next t ∧ FaultState s 1#4 (.illegalUop w s.upc) t) ∧
    (∀ rest, s.turns = .engine :: rest →
      ∃ t, step s = .next t ∧ FaultState { s with turns := rest } 1#4 (.illegalUop w s.upc) t)

/-- R95: at its turn, listed or not, the engine has a step exactly when BUSY = 1 and FAULT = 0. -/
def Obligations.EngineStepsExactlyWhenRunning : Prop :=
  ∀ s : State, (s.turns = [] ∨ ∃ rest, s.turns = .engine :: rest) →
    ((∃ t, step s = .next t) ↔ (s.status.busy = true ∧ s.status.fault = false)) ∧
    (s.status.fault = true → step s = .fault .stopped) ∧
    (s.status.busy = false → s.status.fault = false → step s = .fault .idle)

/-! ## The micro-ops -/

/-- 41 R76: `LDC`, word 0x1000, copies the table into `CREG[0..30]`, writes 0 to `CREG[31]`, has no exception of its own
(at `upc` 31 it does not get as far), and changes nothing else but `upc`. -/
def Obligations.LdcLoadsTheTable : Prop :=
  encode .ldc = 0x1000#16 ∧
  ∀ s : State, s.upc ≠ 31#5 → Completes .ldc s fun t =>
    (∀ i (h : i < 31), t.creg[i] = some s.coeffRom[i]) ∧ t.creg[31] = some 0#16 ∧
    t.upc = s.upc + 1#5 ∧ { t with creg := s.creg, upc := s.upc } = s

/-- 41 R77: `UPD s`, word `0x2000 | s`: with 8 samples left it reads them into slot `s`, oldest lowest, advances `IP` by
8, and changes nothing else but `upc`; with fewer it raises `IN_OVERRUN` and writes nothing. -/
def Obligations.UpdReadsEightSamples : Prop :=
  ∀ slot : BitVec 2, (encode (.upd slot)).toNat = 0x2000 + slot.toNat ∧
    ∀ s : State, s.upc ≠ 31#5 →
      (s.ip.toNat + 8 ≤ s.inp.length → Completes (.upd slot) s fun t =>
        (∀ i (h : i < 8), (t.sb[8 * slot.toNat + i]'(by omega)) = s.inp[s.ip.toNat + i]? ∧
          (s.inp[s.ip.toNat + i]?).isSome = true) ∧
        (∀ j (h : j < 32), j / 8 ≠ slot.toNat → t.sb[j] = s.sb[j]) ∧
        t.ip = s.ip + 8#32 ∧ (s.inp.length < 2 ^ 32 → t.ip.toNat = s.ip.toNat + 8) ∧
        t.upc = s.upc + 1#5 ∧ { t with sb := s.sb, ip := s.ip, upc := s.upc } = s) ∧
      (s.inp.length < s.ip.toNat + 8 → TakesFault (.upd slot) s 4#4 (.inOverrun s.upc s.ip s.inp.length))

/-- 42 R81: `MULSYM x`, word `0x3000 | x`: with its 7 coefficients and 21 samples defined it leaves in every lane of
`ACC0` the exact sum over the symmetric pairs, component by component, and changes nothing else but `upc`; otherwise it
raises `UNDEF_READ` at the first undefined element, the coefficients checked before the samples, and writes nothing. -/
def Obligations.MulsymComputesSymmetricSums : Prop :=
  ∀ x : BitVec 5, (encode (.mulsym x)).toNat = 0x3000 + x.toNat ∧
    ∀ s : State, s.upc ≠ 31#5 →
      (∀ (c : Nat → S16) (w : Nat → Sample), (∀ k (h : k < 7), s.creg[2 * k] = some (c k)) →
        (∀ m < 21, (s.sb[(x.toNat + m) % 32]'(Nat.mod_lt _ (by decide))) = some (w m)) →
        Completes (.mulsym x) s fun t =>
          (∀ l (h : l < 8), ∃ a, t.acc0[l] = some a ∧
            a.re.toInt = ∑ k ∈ Finset.range 7,
              (c k).toInt * ((w (l + (13 - k))).re.toInt + (w (l + k)).re.toInt) ∧
            a.im.toInt = ∑ k ∈ Finset.range 7,
              (c k).toInt * ((w (l + (13 - k))).im.toInt + (w (l + k)).im.toInt)) ∧
          t.upc = s.upc + 1#5 ∧ { t with acc0 := s.acc0, upc := s.upc } = s) ∧
      (∀ k (h : k < 7), s.creg[2 * k] = none → (∀ k' (h' : k' < k), s.creg[2 * k'] ≠ none) →
        TakesFault (.mulsym x) s 3#4 (.undefRead s.upc (.creg ⟨2 * k, by omega⟩))) ∧
      (∀ m < 21, (∀ k (h : k < 7), s.creg[2 * k] ≠ none) →
        (s.sb[(x.toNat + m) % 32]'(Nat.mod_lt _ (by decide))) = none →
        (∀ m' < m, (s.sb[(x.toNat + m') % 32]'(Nat.mod_lt _ (by decide))) ≠ none) →
        TakesFault (.mulsym x) s 3#4 (.undefRead s.upc (.sb ⟨(x.toNat + m) % 32, Nat.mod_lt _ (by decide)⟩)))

/-- 42 R83: where the coefficient register is symmetric, as `LDC` of a symmetric table leaves it, the `MULSYM` sum is
the 14-tap direct form. -/
def Obligations.MulsymEqualsDirectForm : Prop :=
  (∀ (s : State) (x : BitVec 5) (c : Nat → S16) (w : Nat → Sample), s.upc ≠ 31#5 →
    (∀ i (h : i < 27), s.creg[i] = some (c i)) → (∀ k < 7, c (2 * k) = c (26 - 2 * k)) →
    (∀ m < 21, (s.sb[(x.toNat + m) % 32]'(Nat.mod_lt _ (by decide))) = some (w m)) →
    Completes (.mulsym x) s fun t => ∀ l (h : l < 8), ∃ a, t.acc0[l] = some a ∧
      a.re.toInt = ∑ k ∈ Finset.range 14, (c (2 * k)).toInt * (w (l + 13 - k)).re.toInt ∧
      a.im.toInt = ∑ k ∈ Finset.range 14, (c (2 * k)).toInt * (w (l + 13 - k)).im.toInt) ∧
  ∀ s : State, s.upc ≠ 31#5 → RomSymmetric s.coeffRom →
    Completes .ldc s fun t => ∀ k (h : k < 7), t.creg[2 * k] = t.creg[26 - 2 * k]

/-- 42 R84: `MULCTR x`, word `0x4000 | x`: with `CREG[28]` and 8 samples defined it leaves their exact product in every
lane of `ACC1`, and changes nothing else but `upc`; otherwise it raises `UNDEF_READ` at the first undefined element,
`CREG[28]` first, and writes nothing. -/
def Obligations.MulctrComputesProducts : Prop :=
  ∀ x : BitVec 5, (encode (.mulctr x)).toNat = 0x4000 + x.toNat ∧
    ∀ s : State, s.upc ≠ 31#5 →
      (∀ (c : S16) (w : Nat → Sample), s.creg[28] = some c →
        (∀ l < 8, (s.sb[(x.toNat + l) % 32]'(Nat.mod_lt _ (by decide))) = some (w l)) →
        Completes (.mulctr x) s fun t =>
          (∀ l (h : l < 8), ∃ a, t.acc1[l] = some a ∧
            a.re.toInt = c.toInt * (w l).re.toInt ∧ a.im.toInt = c.toInt * (w l).im.toInt) ∧
          t.upc = s.upc + 1#5 ∧ { t with acc1 := s.acc1, upc := s.upc } = s) ∧
      (s.creg[28] = none → TakesFault (.mulctr x) s 3#4 (.undefRead s.upc (.creg 28))) ∧
      (∀ l < 8, s.creg[28] ≠ none → (s.sb[(x.toNat + l) % 32]'(Nat.mod_lt _ (by decide))) = none →
        (∀ l' < l, (s.sb[(x.toNat + l') % 32]'(Nat.mod_lt _ (by decide))) ≠ none) →
        TakesFault (.mulctr x) s 3#4 (.undefRead s.upc (.sb ⟨(x.toNat + l) % 32, Nat.mod_lt _ (by decide)⟩)))

/-- 43 R92, R93: `SRSZIP 15`, word 0x500F: with every lane defined it leaves the filtered value of lane `l` at position
`2*l` and the pass-through value at `2*l + 1` of the sequence `OV0 ++ OV1`, each component shifted by `srs`, and changes
nothing else but `upc`; otherwise it raises `UNDEF_READ` at the first undefined lane in the order `ACC0[0]`, `ACC1[0]`,
`ACC0[1]`, and so on, and writes nothing. -/
def Obligations.SrszipInterleaves : Prop :=
  encode (.srszip 15#5) = 0x500F#16 ∧
  ∀ s : State, s.upc ≠ 31#5 →
    (∀ a b : Nat → Acc, (∀ l (h : l < 8), s.acc0[l] = some (a l) ∧ s.acc1[l] = some (b l)) →
      Completes (.srszip 15#5) s fun t =>
        (∀ l (h : l < 8), ∃ v w,
          ((t.ov0 ++ t.ov1)[2 * l]'(by omega)) = some v ∧ ((t.ov0 ++ t.ov1)[2 * l + 1]'(by omega)) = some w ∧
          v.re.toInt = srs s.srsRound s.srsSat (a l).re.toInt ∧ v.im.toInt = srs s.srsRound s.srsSat (a l).im.toInt ∧
          w.re.toInt = srs s.srsRound s.srsSat (b l).re.toInt ∧ w.im.toInt = srs s.srsRound s.srsSat (b l).im.toInt) ∧
        t.upc = s.upc + 1#5 ∧ { t with ov0 := s.ov0, ov1 := s.ov1, upc := s.upc } = s) ∧
    (∀ l (h : l < 8), (∀ l' (h' : l' < l), s.acc0[l'] ≠ none ∧ s.acc1[l'] ≠ none) →
      (s.acc0[l] = none → TakesFault (.srszip 15#5) s 3#4 (.undefRead s.upc (.acc0 ⟨l, h⟩))) ∧
      (s.acc0[l] ≠ none → s.acc1[l] = none →
        TakesFault (.srszip 15#5) s 3#4 (.undefRead s.upc (.acc1 ⟨l, h⟩))))

/-- 30_encoding.md R72 (the model's reading for a micro-op term with another shift, log 14): `SRSZIP` with `SH` other
than 15 takes `ILLEGAL_UOP` with its word recorded. -/
def Obligations.SrszipOtherShiftIsIllegal : Prop :=
  ∀ (s : State) (sh : BitVec 5), sh ≠ 15#5 →
    TakesFault (.srszip sh) s 1#4 (.illegalUop (BitVec.ofNat 16 (0x5000 + sh.toNat)) s.upc)

/-- 43 R94: `WR`, word 0x6000: with every lane defined and 16 elements left it writes `OV0` then `OV1` at `OP`, advances
`OP` by 16, and changes no other element of `OUT` and nothing else but `upc`; it raises `UNDEF_READ` at the first
undefined lane in the order `OV0[0]`, `OV1[0]`, `OV0[1]`, and so on, whatever room is left; with every lane defined and
fewer than 16 elements left it raises `OUT_OVERRUN`. -/
def Obligations.WrWritesSixteenSamples : Prop :=
  encode .wr = 0x6000#16 ∧
  ∀ s : State, s.upc ≠ 31#5 →
    (∀ a b : Nat → Sample, (∀ l (h : l < 8), s.ov0[l] = some (a l) ∧ s.ov1[l] = some (b l)) →
      s.op.toNat + 16 ≤ s.nout.toNat → Completes .wr s fun t =>
        (∀ q, t.out.read q =
          if s.op.toNat ≤ q ∧ q < s.op.toNat + 8 then some (a (q - s.op.toNat))
          else if s.op.toNat + 8 ≤ q ∧ q < s.op.toNat + 16 then some (b (q - s.op.toNat - 8))
          else s.out.read q) ∧
        t.op.toNat = s.op.toNat + 16 ∧ t.upc = s.upc + 1#5 ∧
        { t with out := s.out, op := s.op, upc := s.upc } = s) ∧
    (∀ l (h : l < 8), (∀ l' (h' : l' < l), s.ov0[l'] ≠ none ∧ s.ov1[l'] ≠ none) →
      (s.ov0[l] = none → TakesFault .wr s 3#4 (.undefRead s.upc (.ov0 ⟨l, h⟩))) ∧
      (s.ov0[l] ≠ none → s.ov1[l] = none → TakesFault .wr s 3#4 (.undefRead s.upc (.ov1 ⟨l, h⟩)))) ∧
    ((∀ l (h : l < 8), s.ov0[l] ≠ none ∧ s.ov1[l] ≠ none) → s.nout.toNat < s.op.toNat + 16 →
      TakesFault .wr s 5#4 (.outOverrun s.upc s.op s.nout))

/-- 44 R96: `LOOP t`, word `0x7000 | t`: with iterations remaining it decrements `TRIP` and branches to `t`; on the last
one it clears `TRIP` and falls through, but from `upc` = 31 that raises `UPC_OVERFLOW`; with `TRIP` = 0 it raises
`BAD_TRIP`, wherever it stands; it changes nothing else. -/
def Obligations.LoopBranchesOrFallsThrough : Prop :=
  ∀ tgt : UpcWord, (encode (.loop tgt)).toNat = 0x7000 + tgt.toNat ∧
    ∀ s : State,
      (2 ≤ s.trip.toNat → Completes (.loop tgt) s fun t =>
        t.trip.toNat = s.trip.toNat - 1 ∧ t.upc = tgt ∧ { t with trip := s.trip, upc := s.upc } = s) ∧
      (s.trip.toNat = 1 → s.upc ≠ 31#5 → Completes (.loop tgt) s fun t =>
        t.trip.toNat = 0 ∧ t.upc = s.upc + 1#5 ∧ { t with trip := s.trip, upc := s.upc } = s) ∧
      (s.trip.toNat = 0 → TakesFault (.loop tgt) s 6#4 (.badTrip s.upc)) ∧
      (s.trip.toNat = 1 → s.upc = 31#5 → TakesFault (.loop tgt) s 2#4 (.upcOverflow 31#5))

/-- 44 R97: `DONE`, word 0x8000, clears BUSY, sets DONE, and changes nothing else: `upc` is not advanced. From the state
it leaves the engine has no step. -/
def Obligations.DoneEndsTheInvocation : Prop :=
  encode .done = 0x8000#16 ∧
  ∀ s : State, Completes .done s fun t =>
    t.status = { s.status with busy := false, done := true } ∧ { t with status := s.status } = s ∧
    ∀ u, engineStep t ≠ .next u

/-- 44 R95, 60 R119: at `upc` = 31 every legal micro-op but `LOOP` and `DONE` raises `UPC_OVERFLOW`, before any check of
its own. -/
def Obligations.SequentialOverflowComesFirst : Prop :=
  ∀ (s : State) (i : Instr), s.upc = 31#5 → i.wf = true → (∀ tgt, i ≠ .loop tgt) → i ≠ .done →
    TakesFault i s 2#4 (.upcOverflow 31#5)

/-- 60 R117, R118: a faulting micro-op writes nothing except the fault state: BUSY, FAULT, FCODE and the recorded info. -/
def Obligations.FaultsArePrecise : Prop :=
  ∀ (i : Instr) (s t : State), s.status.fault = false → exec i s = .next t → t.status.fault = true →
    ∃ f, FaultState s (faultCode f) f t

/-- Every micro-op answers a next state in every state. It takes a fault, of which only the fault state is written, or the
sequencer moves as R95 to R97 say and the recorded fault stays. (What a micro-op then does to the data is in the
statement about that micro-op.) -/
def Obligations.EveryMicroOpAnswersANextState : Prop :=
  ∀ (i : Instr) (s : State), ∃ t, exec i s = .next t ∧
    ((∃ f, FaultState s (faultCode f) f t) ∨ (t.faultInfo = s.faultInfo ∧ SequencerMoves i s t))

/-- 10 R34 to R38, 42 R82, R85: which micro-op writes what; and no micro-op writes `NOUT`, `IN`, the constants or the
model's record of the host. -/
def Obligations.OnlyItsWriterWritesAnElement : Prop :=
  ∀ (i : Instr) (s t : State), exec i s = .next t →
    (i ≠ .ldc → t.creg = s.creg) ∧ ((∀ x, i ≠ .upd x) → t.sb = s.sb ∧ t.ip = s.ip) ∧
    ((∀ x, i ≠ .mulsym x) → t.acc0 = s.acc0) ∧ ((∀ x, i ≠ .mulctr x) → t.acc1 = s.acc1) ∧
    ((∀ x, i ≠ .srszip x) → t.ov0 = s.ov0 ∧ t.ov1 = s.ov1) ∧ (i ≠ .wr → t.out = s.out ∧ t.op = s.op) ∧
    ((∀ x, i ≠ .loop x) → t.trip = s.trip) ∧ (i ≠ .done → t.status.done = s.status.done) ∧
    t.nout = s.nout ∧ t.inp = s.inp ∧ t.coeffRom = s.coeffRom ∧ t.uprog = s.uprog ∧ t.srsRound = s.srsRound ∧
    t.srsSat = s.srsSat ∧ t.turns = s.turns ∧ t.reply = s.reply ∧ t.doneSeen = s.doneSeen ∧
    t.freeCount = s.freeCount ∧ t.freeStream = s.freeStream

/-! ## Arithmetic -/

/-- 42 R80: no `MULSYM` sum and no `MULCTR` product leaves `int48`. For all `int16` values their magnitudes are at most
7 * 2^31 and 2^30, and so are those of the model's own sums and products; a lane holds a value of that size exactly, and
after a completed `MULSYM` or `MULCTR` every lane holds its exact sum or product, within that bound. -/
def Obligations.MacFitsTheAccumulator : Prop :=
  (∀ (c v w : Nat → S16),
    |∑ k ∈ Finset.range 7, (c k).toInt * ((v k).toInt + (w k).toInt)| ≤ 7 * 2 ^ 31 ∧
    |(c 0).toInt * (v 0).toInt| ≤ 2 ^ 30) ∧
  (∀ a : Int, |a| ≤ 7 * 2 ^ 31 → accOfInts (some a) (some a) = some ⟨BitVec.ofInt 48 a, BitVec.ofInt 48 a⟩ ∧
    (BitVec.ofInt 48 a).toInt = a) ∧
  ∀ (s t : State) (x : BitVec 5),
    (∀ (part : Sample → S16) (l : Nat) (a : Int),
      (sumDefined 7 (symTerm s x part l) = some a → |a| ≤ 7 * 2 ^ 31) ∧ (ctrTerm s x part l = some a → |a| ≤ 2 ^ 30)) ∧
    (exec (.mulsym x) s = .next t → t.upc = s.upc + 1#5 → ∀ l (h : l < 8), ∃ v, t.acc0[l] = some v ∧
      sumDefined 7 (symTerm s x Sample.re l) = some v.re.toInt ∧ |v.re.toInt| ≤ 7 * 2 ^ 31 ∧
      sumDefined 7 (symTerm s x Sample.im l) = some v.im.toInt ∧ |v.im.toInt| ≤ 7 * 2 ^ 31) ∧
    (exec (.mulctr x) s = .next t → t.upc = s.upc + 1#5 → ∀ l (h : l < 8), ∃ v, t.acc1[l] = some v ∧
      ctrTerm s x Sample.re l = some v.re.toInt ∧ |v.re.toInt| ≤ 2 ^ 30 ∧
      ctrTerm s x Sample.im l = some v.im.toInt ∧ |v.im.toInt| ≤ 2 ^ 30)

/-- 43 R88: `srs(a, 15)` under the default parameters. -/
def Obligations.SrsDefaultFormula : Prop :=
  ∀ a : Int, srs .halfUp .saturate a = min 32767 (max (-32768) ((a + 2 ^ 14) / 2 ^ 15))

/-- 43 R89: the three tie rules agree off ties, and at a tie they round up, to the even neighbour, and away from zero;
the two overflow rules agree within `int16`, and `WRAP` keeps the low 16 bits. -/
def Obligations.SrsParameters : Prop :=
  (∀ (r : SrsRound) (a : Int), a % 2 ^ 15 ≠ 2 ^ 14 → roundShift r a = roundShift .halfUp a) ∧
  (∀ q : Int, roundShift .halfUp (2 ^ 15 * q + 2 ^ 14) = q + 1 ∧
    roundShift .halfEven (2 ^ 15 * q + 2 ^ 14) % 2 = 0 ∧
    (roundShift .halfEven (2 ^ 15 * q + 2 ^ 14) = q ∨ roundShift .halfEven (2 ^ 15 * q + 2 ^ 14) = q + 1) ∧
    (0 ≤ q → roundShift .halfAway (2 ^ 15 * q + 2 ^ 14) = q + 1) ∧
    (q < 0 → roundShift .halfAway (2 ^ 15 * q + 2 ^ 14) = q)) ∧
  (∀ v : Int, -32768 ≤ v → v ≤ 32767 → narrow16 .saturate v = v ∧ narrow16 .wrap v = v) ∧
  (∀ v : Int, narrow16 .wrap v = ((v + 2 ^ 15) % 2 ^ 16) - 2 ^ 15) ∧
  (∀ v : Int, narrow16 .saturate v = min 32767 (max (-32768) v))

/-- 43 R90: the table of values of `srs` under the default parameters, and the values its notes give under the others. -/
def Obligations.SrsTable : Prop :=
  [0, 16383, 16384, 32767, 32768, 49152, -16384, -16385, -49152, 1073676289, -1073709056, 1073741824, 15032385536,
    -15032385536].map (srs .halfUp .saturate) =
  [0, 0, 1, 1, 1, 2, 0, -1, -1, 32766, -32767, 32767, 32767, -32768] ∧
  [16384, 49152, -16384, -49152].map (srs .halfEven .saturate) = [0, 2, 0, -2] ∧
  [16384, 49152, -16384, -49152].map (srs .halfAway .saturate) = [1, 2, -1, -2] ∧
  [1073741824, 15032385536, -15032385536].map (roundShift .halfUp) = [32768, 458752, -458752] ∧
  [1073741824, 15032385536, -15032385536].map (srs .halfUp .wrap) = [-32768, 0, 0]

/-- 43 R91: under the centre scale 32767 and the default parameters, `MULCTR` and then `SRSZIP` leave
`srs(32767 * v, 15)` in the pass-through position of every lane, which is `v`, `v - 1` or `v + 1` by the range of `v`. -/
def Obligations.PassThroughLaw : Prop :=
  (∀ (s : State) (x : BitVec 5) (w : Nat → Sample), s.upc.toNat < 30 → s.srsRound = .halfUp → s.srsSat = .saturate →
    s.creg[28] = some 32767#16 →
    (∀ l (h : l < 8), (s.sb[(x.toNat + l) % 32]'(Nat.mod_lt _ (by decide))) = some (w l) ∧ s.acc0[l] ≠ none) →
    Completes (.mulctr x) s fun t => Completes (.srszip 15#5) t fun u => ∀ l (h : l < 8), ∃ v,
      ((u.ov0 ++ u.ov1)[2 * l + 1]'(by omega)) = some v ∧
      v.re.toInt = srs .halfUp .saturate (32767 * (w l).re.toInt) ∧
      v.im.toInt = srs .halfUp .saturate (32767 * (w l).im.toInt)) ∧
  ∀ v : S16,
    (-16383 ≤ v.toInt → v.toInt ≤ 16384 → srs .halfUp .saturate (32767 * v.toInt) = v.toInt) ∧
    (16385 ≤ v.toInt → srs .halfUp .saturate (32767 * v.toInt) = v.toInt - 1) ∧
    (v.toInt ≤ -16384 → srs .halfUp .saturate (32767 * v.toInt) = v.toInt + 1)

/-- 45 R112: scaling the input by `k` scales every exact sum and product by `k`; under every tie rule a rounded value is
within one half of its exact quotient; so where neither result leaves the `int16` range the output of the scaled value
is `k` times the output up to `(|k| + 1) / 2`. -/
def Obligations.OutputsScaleWithinTolerance : Prop :=
  (∀ (rom : Vector S16 31) (x : Nat → Int) (k : Int) (q : Nat),
    exactOut rom (fun m => k * x m) q = k * exactOut rom x q) ∧
  ∀ (r : SrsRound) (m : SrsSat) (a k : Int), |2 ^ 15 * roundShift r a - a| ≤ 2 ^ 14 ∧
    (-32768 ≤ roundShift r a → roundShift r a ≤ 32767 → -32768 ≤ roundShift r (k * a) → roundShift r (k * a) ≤ 32767 →
      2 * |srs r m (k * a) - k * srs r m a| ≤ |k| + 1)

/-! ## The closed form of one invocation (45_invocation.md) -/

/-- R106: output pair `j` depends on the samples `IN[3 + j .. 16 + j]` and on no other. -/
def Obligations.PairDependsOnFourteenSamples : Prop :=
  ∀ (rom : Vector S16 31) (x y : Nat → Int) (j : Nat), (∀ m, 3 + j ≤ m → m ≤ 16 + j → x m = y m) →
    exactOut rom x (2 * j) = exactOut rom y (2 * j) ∧ exactOut rom x (2 * j + 1) = exactOut rom y (2 * j + 1)

/-- R107: under `ROM_SYMMETRIC` the filtered output is the 14-tap direct form. -/
def Obligations.FilteredOutputDirectForm : Prop :=
  ∀ (r : SrsRound) (m : SrsSat) (rom : Vector S16 31) (inp : List Sample) (j : Nat), RomSymmetric rom →
    closedOut r m rom inp (2 * j) =
      { re := BitVec.ofInt 16 (srs r m (∑ k ∈ Finset.range 14, tap rom (2 * k) * inComp Sample.re inp (16 + j - k)))
        im := BitVec.ofInt 16 (srs r m (∑ k ∈ Finset.range 14, tap rom (2 * k) * inComp Sample.im inp (16 + j - k))) }

/-- R108: under `ROM_SYMMETRIC`, `ROM_HALFBAND` and `C[28] = C[13]`, every output is the 27-tap filter applied to the
zero-stuffed input. -/
def Obligations.OutputIsTheZeroStuffedFilter : Prop :=
  ∀ (r : SrsRound) (m : SrsSat) (rom : Vector S16 31) (inp : List Sample) (q : Nat), RomSymmetric rom →
    RomHalfband rom → tap rom 28 = tap rom 13 →
    closedOut r m rom inp q =
      { re := BitVec.ofInt 16 (srs r m (filter27 rom (zeroStuffed (inComp Sample.re inp)) q))
        im := BitVec.ofInt 16 (srs r m (filter27 rom (zeroStuffed (inComp Sample.im inp)) q)) }

/-- R110: for a constant input the outputs are the DC gain and the centre scale times the sample, shifted; under
`ROM_SYMMETRIC` the gain is the sum of the 14 even-index taps; a unit sample passes through the scale 32767 unchanged. -/
def Obligations.ConstantInputResponse : Prop :=
  ∀ (r : SrsRound) (m : SrsSat) (rom : Vector S16 31) (inp : List Sample) (d : Sample) (j : Nat),
    (∀ i, 3 + j ≤ i → i ≤ 16 + j → inp[i]? = some d) →
    (closedOut r m rom inp (2 * j) =
      { re := BitVec.ofInt 16 (srs r m ((∑ k ∈ Finset.range 7, 2 * tap rom (2 * k)) * d.re.toInt))
        im := BitVec.ofInt 16 (srs r m ((∑ k ∈ Finset.range 7, 2 * tap rom (2 * k)) * d.im.toInt)) }) ∧
    (closedOut r m rom inp (2 * j + 1) =
      { re := BitVec.ofInt 16 (srs r m (tap rom 28 * d.re.toInt))
        im := BitVec.ofInt 16 (srs r m (tap rom 28 * d.im.toInt)) }) ∧
    (RomSymmetric rom → ∑ k ∈ Finset.range 7, 2 * tap rom (2 * k) = ∑ k ∈ Finset.range 14, tap rom (2 * k)) ∧
    (d = { re := 1#16, im := 0#16 } → tap rom 28 = 32767 → r = .halfUp → closedOut r m rom inp (2 * j + 1) = d)

/-- R111: under `ROM_SYMMETRIC` an impulse at index `p` shows the 14 even-index taps in the filtered stream and the
centre scale once in the pass-through stream, and every other output is zero. -/
def Obligations.ImpulseResponse : Prop :=
  ∀ (r : SrsRound) (m : SrsSat) (rom : Vector S16 31) (inp : List Sample) (a : Sample) (p j : Nat), RomSymmetric rom →
    inp[p]? = some a → (∀ i w, i ≠ p → inp[i]? = some w → w = { re := 0#16, im := 0#16 }) →
    closedOut r m rom inp (2 * j) =
      (if p ≤ 16 + j ∧ 16 + j - p ≤ 13 then
        { re := BitVec.ofInt 16 (srs r m (tap rom (2 * (16 + j - p)) * a.re.toInt))
          im := BitVec.ofInt 16 (srs r m (tap rom (2 * (16 + j - p)) * a.im.toInt)) }
      else { re := 0#16, im := 0#16 }) ∧
    closedOut r m rom inp (2 * j + 1) =
      (if p = 10 + j then
        { re := BitVec.ofInt 16 (srs r m (tap rom 28 * a.re.toInt))
          im := BitVec.ofInt 16 (srs r m (tap rom 28 * a.im.toInt)) }
      else { re := 0#16, im := 0#16 })

/-- R114: an invocation whose window starts where the previous one's unconsumed samples need it continues its outputs:
output `q` of the window from sample `n / 2` on is output `n + q` of the longer window. -/
def Obligations.WindowsContinue : Prop :=
  ∀ (r : SrsRound) (m : SrsSat) (rom : Vector S16 31) (inp : List Sample) (n q : Nat), n % 64 = 0 →
    closedOut r m rom (inp.drop (n / 2)) q = closedOut r m rom inp (n + q)

/-! ## Invocations of the default microprogram -/

/-- 41 R79, 42 R87, 45 R105: every step of the machine, the engine's and the host's, keeps the invariant that a running
invocation of the default microprogram is on the way to the closed form: what `IP`, `OP`, `TRIP`, `CREG`, `SB`, the
accumulators, the staging vectors and `OUT` hold at each of its words. -/
def Obligations.EveryStepTracksTheClosedForm : Prop :=
  ∀ s t : State, Tracks s → step s = .next t → Tracks t

/-- 45 R105, R109: when a tracked invocation completes, `OUT` holds the closed form at every index below `NOUT` and
nothing elsewhere, `OP` is `NOUT` and `IP` is `16 + NOUT/2`. -/
def Obligations.CompletionDeliversTheClosedForm : Prop :=
  ∀ s t : State, Tracks s → s.status.busy = true → s.status.done = false → step s = .next t → t.status.done = true →
    t.op.toNat = t.nout.toNat ∧ t.ip.toNat = 16 + t.nout.toNat / 2 ∧
    ∀ q, t.out.read q =
      if q < t.nout.toNat then some (closedOut t.srsRound t.srsSat t.coeffRom t.inp q) else none

/-- 44 R104, 60 R116, 42 R87: with a window of `16 + NOUT/2` samples a tracked invocation takes no fault, and each engine
step brings DONE one step nearer; the last one is that of `DONE`. -/
def Obligations.InvocationCountsDownToDone : Prop :=
  ∀ s : State, Tracks s → s.status.busy = true → s.status.fault = false → s.turns = [] →
    16 + s.nout.toNat / 2 ≤ s.inp.length →
    ∃ t, step s = .next t ∧ t.status.fault = false ∧
      (stepsLeft s = 1 → t.status.busy = false ∧ t.status.done = true) ∧
      (stepsLeft s ≠ 1 → t.status.busy = true ∧ stepsLeft t + 1 = stepsLeft s)

/-- 44 R104, 20 R45: with a shorter window a tracked invocation never completes: each engine step goes on, until an
`UPD` that has fewer than 8 samples left raises `IN_OVERRUN`. -/
def Obligations.ShortWindowOverruns : Prop :=
  ∀ s : State, Tracks s → s.status.busy = true → s.status.fault = false → s.turns = [] →
    s.inp.length < 16 + s.nout.toNat / 2 →
    ∃ t, step s = .next t ∧
      ((t.status.busy = true ∧ t.status.fault = false ∧ stepsLeft t + 1 = stepsLeft s) ∨
        (s.inp.length < s.ip.toNat + 8 ∧ FaultState s 4#4 (.inOverrun s.upc s.ip s.inp.length) t))

/-- 70 R135, 44 R104, 45 R105: from a clean launch, the host's START and `4 + 21 * T` engine steps lead to `STATUS` =
0x2 with the closed form in `OUT[0..NOUT-1]`. -/
def Obligations.CleanLaunchCompletes : Prop :=
  ∀ (bufAlign : Nat) (p : PlatformMap) (T : Nat) (s : State), CleanLaunch bufAlign p T s →
    s.turns = [.host (.writeReg 0 1#32)] →
    ∃ t, Host.Core.run Sys2Proof.core (1 + (4 + 21 * T)) s = .next t ∧ statusWord t.status = 2#32 ∧ Final t ∧
      t.nout = s.nout ∧ result t =
        (List.range s.nout.toNat).map fun q => some (closedOut s.srsRound s.srsSat s.coeffRom s.inp q)

/-! ## The host -/

/-- 44 R98, R99: a host write with bit 0 set to `CTRL` of an idle, unfaulted block with a legal `NOUT` begins an
invocation: the effects of R99, and no others on the block. -/
def Obligations.StartBeginsAnInvocation : Prop :=
  ∀ (s : State) (v : RegWord), v.getLsbD 0 = true → s.status.busy = false → s.status.fault = false →
    0 < s.nout.toNat → s.nout.toNat % 64 = 0 →
    ∃ t, hostMove (.writeReg 0 v) s = .next t ∧
      t.status = { s.status with busy := true, done := false } ∧ t.upc = 0#5 ∧ t.trip.toNat = s.nout.toNat / 64 ∧
      t.ip = 0#32 ∧ t.op = 0#32 ∧ (∀ i (h : i < 32), t.creg[i] = none ∧ t.sb[i] = none) ∧
      (∀ l (h : l < 8), t.acc0[l] = none ∧ t.acc1[l] = none ∧ t.ov0[l] = none ∧ t.ov1[l] = none) ∧
      (∀ q, t.out.read q = none) ∧
      t.nout = s.nout ∧ t.coeffRom = s.coeffRom ∧ t.uprog = s.uprog ∧ t.srsRound = s.srsRound ∧
      t.srsSat = s.srsSat ∧ t.inp = s.inp ∧ t.faultInfo = s.faultInfo ∧ t.turns = s.turns

/-- 44 R98: a host write of `CTRL`, in the rule's order: while BUSY the host has no such move; of a faulted block it is
ignored; with an illegal `NOUT` it sets FAULT and the code `BAD_NOUT`, clears DONE and starts nothing; otherwise the
invocation starts. A write with bit 0 clear has no effect (10 R27). -/
def Obligations.StartIsHandledInOrder : Prop :=
  ∀ (s : State) (v : RegWord),
    (v.getLsbD 0 = false → hostMove (.writeReg 0 v) s = .next s) ∧
    (v.getLsbD 0 = true →
      (s.status.busy = true → hostMove (.writeReg 0 v) s = .refused .startWhileBusy) ∧
      (s.status.busy = false → s.status.fault = true → hostMove (.writeReg 0 v) s = .next s) ∧
      (s.status.busy = false → s.status.fault = false → (s.nout.toNat = 0 ∨ s.nout.toNat % 64 ≠ 0) →
        ∃ t, hostMove (.writeReg 0 v) s = .next t ∧
          t.status = { busy := false, done := false, fault := true, fcode := 7#4 } ∧
          t.faultInfo = some (.badNout s.nout) ∧
          { t with status := s.status, faultInfo := s.faultInfo, doneSeen := s.doneSeen } = s) ∧
      (s.status.busy = false → s.status.fault = false → s.nout.toNat ≠ 0 → s.nout.toNat % 64 = 0 →
        ∃ t, hostMove (.writeReg 0 v) s = .next t ∧ t.status.busy = true ∧ t.trip.toNat = s.nout.toNat / 64))

/-- 45 R113, 10 R42: an accepted START erases all history: two idle blocks that agree on `NOUT`, `IN`, the constants,
the parameters and the model's record of turns and replies begin in the same state. -/
def Obligations.StartForgetsHistory : Prop :=
  ∀ s s' t t' : State, s.status.fault = false → s'.status.fault = false → s.status.fcode = s'.status.fcode →
    s.nout = s'.nout → s.inp = s'.inp → s.coeffRom = s'.coeffRom → s.uprog = s'.uprog → s.srsRound = s'.srsRound →
    s.srsSat = s'.srsSat → s.faultInfo = s'.faultInfo → s.turns = s'.turns → s.reply = s'.reply →
    s.freeCount = s'.freeCount → s.freeStream = s'.freeStream → legalNout s.nout = true →
    hostMove (.writeReg 0 1#32) s = .next t → hostMove (.writeReg 0 1#32) s' = .next t' → t = t'

/-- 10 R26 to R29: the register file. A host read of any number gives back `readReg`. `CTRL` reads 0; of a write to it only
bit 0 counts: clear, it has no effect; set, it requests an invocation, which begins where the block is idle and unfaulted
and `NOUT` legal. `STATUS` reads as the fields of R28 in their bits and ignores writes; START, `DONE`, a fault and reset
set and clear its fields as R28 says, at most one of BUSY, DONE and FAULT is 1 and FCODE is 0 without a fault (in the
states of the invariant). `NOUT` reads as stored and takes a write of any value only while BUSY = 0. Other numbers read 0
and ignore writes. After reset all registers read 0. -/
def Obligations.RegisterFile : Prop :=
  (∀ r, State.reset.readReg r = 0#32) ∧
  ∀ (s : State) (r : Nat) (v : RegWord),
    (∃ t, hostMove (.readReg r) s = .next t ∧ t.reply = some (.reg (s.readReg r))) ∧
    -- CTRL (R27)
    s.readReg 0 = 0#32 ∧
    (v.getLsbD 0 = false → hostMove (.writeReg 0 v) s = .next s) ∧
    (v.getLsbD 0 = true → hostMove (.writeReg 0 v) s = hostMove (.writeReg 0 1#32) s ∧
      (s.status.busy = false → s.status.fault = false → 0 < s.nout.toNat → s.nout.toNat % 64 = 0 →
        hostMove (.writeReg 0 v) s = .next s.begin)) ∧
    -- STATUS (R28)
    (s.readReg 1).toNat =
      s.status.busy.toNat + 2 * s.status.done.toNat + 4 * s.status.fault.toNat + 16 * s.status.fcode.toNat ∧
    hostMove (.writeReg 1 v) s = .next s ∧
    (s.begin.status.busy = true ∧ s.begin.status.done = false) ∧
    (Completes .done s fun t => t.status.busy = false ∧ t.status.done = true) ∧
    (∀ f, (s.raise f).status.busy = false ∧ (s.raise f).status.fault = true ∧ (s.raise f).status.fcode = faultCode f) ∧
    (s.status.fault = true → (∀ rest, s.turns ≠ .host .reset :: rest) → ∀ t, step s = .next t → t.status.fault = true) ∧
    (Inv s → s.status.busy.toNat + s.status.done.toNat + s.status.fault.toNat ≤ 1 ∧
      (s.status.fault = false → s.status.fcode = 0#4)) ∧
    -- NOUT (R29)
    s.readReg 2 = s.nout ∧
    (s.status.busy = true → hostMove (.writeReg 2 v) s = .next s) ∧
    (s.status.busy = false → hostMove (.writeReg 2 v) s = .next { s with nout := v }) ∧
    -- the other numbers (R26)
    (3 ≤ r → s.readReg r = 0#32 ∧ hostMove (.writeReg r v) s = .next s)

/-- 10 R28: the bits of `STATUS` as the host reads it. -/
def Obligations.StatusBits : Prop :=
  ∀ s : State, (s.readReg 1).toNat =
    s.status.busy.toNat + 2 * s.status.done.toNat + 4 * s.status.fault.toNat + 16 * s.status.fcode.toNat

/-- 20 R57, 60 R126: a host read gives back the register's value and changes nothing of the block; only the model's own
record of what the host has seen. -/
def Obligations.HostReadsHaveNoSideEffect : Prop :=
  ∀ (s : State) (r : Nat), ∃ t, hostMove (.readReg r) s = .next t ∧ t.reply = some (.reg (s.readReg r)) ∧
    { t with reply := s.reply, doneSeen := s.doneSeen } = s

/-- 20 R51, R61, 60 R126, 70 R136: a host read of `OUT[i]`, or of byte `k` of `OUT`, gives the sample written, or byte
`k mod 4` of sample `k / 4`, once the host has read DONE = 1 (noted as log 4 says); before that, and for an element never
written, the value given back is free (log 10); past `NOUT` the model stops (log 12). -/
def Obligations.OutReadsAfterDone : Prop :=
  ∀ (s : State) (i k : Nat), k / 4 = i →
    (s.nout.toNat ≤ i → hostMove (.readOut i) s = .fault .outIndexOutside ∧
      hostMove (.readOutByte k) s = .fault .outIndexOutside) ∧
    (∀ v, i < s.nout.toNat → s.status.done = true → s.doneSeen = true → s.out.read i = some v →
      hostMove (.readOut i) s = .next { s with reply := some (.sample v) } ∧
      hostMove (.readOutByte k) s = .next { s with
        reply := some (.byte (BitVec.ofNat 8 ((v.re.toNat + 2 ^ 16 * v.im.toNat) / 2 ^ (8 * (k % 4))))) }) ∧
    (i < s.nout.toNat → (s.status.done = false ∨ s.doneSeen = false ∨ s.out.read i = none) →
      (∃ v, hostMove (.readOut i) s = .next { s with reply := some (.sample v), freeCount := s.freeCount + 1 }) ∧
      ∃ b, hostMove (.readOutByte k) s = .next { s with reply := some (.byte b), freeCount := s.freeCount + 1 })

/-- 20 R45, R51, 60 R126, 70 R136: the host's fill of the input window. While BUSY = 0 the window becomes exactly the
samples given, and nothing else changes; while BUSY = 1 the host has no such move (log 15); a window too long for 32 bits
is refused (log 13). A fill with the window's bytes does the same, and bytes that end inside a sample are refused
(log 18). -/
def Obligations.HostFillsTheWindow : Prop :=
  ∀ (s : State) (w : List Sample),
    (s.status.busy = false → w.length < 2 ^ 32 → hostMove (.fillIn w) s = .next { s with inp := w }) ∧
    (s.status.busy = true → hostMove (.fillIn w) s = .refused .fillWhileBusy) ∧
    (s.status.busy = false → 2 ^ 32 ≤ w.length → hostMove (.fillIn w) s = .refused .windowTooLong) ∧
    hostMove (.fillInBytes (bytesOfWindow w)) s = hostMove (.fillIn w) s ∧
    ∀ bytes : List Byte, bytes.length % 4 ≠ 0 → hostMove (.fillInBytes bytes) s = .refused .partialSample

/-- 60 R120: FAULT and FCODE are cleared only by reset: a faulted block has no engine step, ignores START, and keeps
FAULT and FCODE in every step but the host's reset; the host's reset clears both. -/
def Obligations.FaultIsSticky : Prop :=
  ∀ s : State, s.status.fault = true →
    engineStep s = .fault .stopped ∧
    (s.status.busy = false → ∀ v, hostMove (.writeReg 0 v) s = .next s) ∧
    ∀ t, step s = .next t →
      (∀ rest, s.turns = .host .reset :: rest → t.status.fault = false ∧ t.status.fcode = 0#4) ∧
      ((∀ rest, s.turns ≠ .host .reset :: rest) → t.status.fault = true ∧ t.status.fcode = s.status.fcode)

/-- The model's record of a fault is kept with it (log 19, read from 60 R118 and R120 by inference): in a faulted block no
step but the host's reset changes it, and the host's reset clears it. -/
def Obligations.FaultRecordIsKept : Prop :=
  ∀ s t : State, s.status.fault = true → step s = .next t →
    (∀ rest, s.turns = .host .reset :: rest → t.faultInfo = none) ∧
    ((∀ rest, s.turns ≠ .host .reset :: rest) → t.faultInfo = s.faultInfo)

/-- 60 R131: only an accepted START moves the block from idle to running. -/
def Obligations.OnlyStartWakesTheEngine : Prop :=
  ∀ s t : State, s.status.busy = false → step s = .next t → t.status.busy = true →
    ∃ v rest, s.turns = .host (.writeReg 0 v) :: rest ∧ v.getLsbD 0 = true ∧ s.status.fault = false ∧
      0 < s.nout.toNat ∧ s.nout.toNat % 64 = 0 ∧ t.upc = 0#5 ∧ t.status.done = false

/-- 70 R132, 10 R43: reset, from any state, leaves the "after reset" column, and the constants stay. The other clauses are
the model's choices: the host's window stays (log 8), the written elements of `OUT` stay and the unwritten ones stay `⊥`
(log 9: R133 calls `OUT` then unspecified), and the record of a fault is cleared (log 19). -/
def Obligations.ResetLeavesTheResetColumn : Prop :=
  ∀ s : State, ∃ t, hostMove .reset s = .next t ∧
    t.readReg 1 = 0#32 ∧ t.nout = 0#32 ∧ t.upc = 0#5 ∧ t.trip = 0#32 ∧ t.ip = 0#32 ∧ t.op = 0#32 ∧
    (∀ i (h : i < 32), t.creg[i] = none ∧ t.sb[i] = none) ∧
    (∀ l (h : l < 8), t.acc0[l] = none ∧ t.acc1[l] = none ∧ t.ov0[l] = none ∧ t.ov1[l] = none) ∧
    t.coeffRom = s.coeffRom ∧ t.uprog = s.uprog ∧ t.faultInfo = none ∧ t.inp = s.inp ∧ ∀ q, t.out.read q = s.out.read q

/-- 20 R58, 70 R133, for a map with the three registers at addresses of their own (log 11): an event by which the map says
that reset is asserted resets the block, and any other read or write at a register's address is the host's access of that
register; what is neither leaves the block unchanged. -/
def Obligations.PlatformEventsReachTheBlock : Prop :=
  ∀ (p : PlatformMap) (s : State), p.RegistersApart →
    (∀ e ∈ p.resetBy, platformEvent p e s = hostMove .reset s) ∧
    (∀ (a r : Nat), (a, r) ∈ [(p.ctrlAddr, 0), (p.statusAddr, 1), (p.noutAddr, 2)] →
      (.read a ∉ p.resetBy → platformEvent p (.read a) s = hostMove (.readReg r) s) ∧
      (∀ v, .write a v ∉ p.resetBy → platformEvent p (.write a v) s = hostMove (.writeReg r v) s)) ∧
    (∀ n, .signal n ∉ p.resetBy → platformEvent p (.signal n) s = .next s) ∧
    (∀ a, a ∉ [p.ctrlAddr, p.statusAddr, p.noutAddr] →
      (.read a ∉ p.resetBy → platformEvent p (.read a) s = .next s) ∧
      (∀ v, .write a v ∉ p.resetBy → platformEvent p (.write a v) s = .next s))

/-- 44 R100, 30 R75: the default microprogram, in the assembler's words: 25 micro-ops and seven illegal words. -/
def Obligations.DefaultMicroprogram : Prop :=
  State.reset.uprog.toList =
    (([.ldc, .upd 0, .upd 1] : List Instr) ++ substep 2 3 ++ substep 3 11 ++ substep 0 19 ++ substep 1 27 ++
      ([.loop 3, .done] : List Instr)).map encode ++ List.replicate 7 0#16

/-- 10 R43: the state after reset: the reset column; and the default parameters of `srs` (log 7). -/
def Obligations.ResetState : Prop :=
  State.reset.readReg 1 = 0#32 ∧ State.reset.nout = 0#32 ∧ State.reset.upc = 0#5 ∧ State.reset.trip = 0#32 ∧
  State.reset.ip = 0#32 ∧ State.reset.op = 0#32 ∧
  (∀ i (h : i < 32), State.reset.creg[i] = none ∧ State.reset.sb[i] = none) ∧
  (∀ l (h : l < 8), State.reset.acc0[l] = none ∧ State.reset.acc1[l] = none ∧ State.reset.ov0[l] = none ∧
    State.reset.ov1[l] = none) ∧
  State.reset.srsRound = .halfUp ∧ State.reset.srsSat = .saturate

/-- 20 R50, R51 (general knowledge by the spec's own mark, log 2): the byte view. A sample is the word with `re` low and
`im` high, stored little-endian: byte `k` of a window is byte `k mod 4` of sample `k / 4`, reading the window's bytes back
gives the window, and the cells of `OUT` are those bytes of its written samples at byte offset `4*i`; a coefficient takes
two bytes, low byte first. -/
def Obligations.ByteViewRoundTrips : Prop :=
  (∀ v : Sample, (packSample v).toNat = v.re.toNat + 2 ^ 16 * v.im.toNat ∧ unpackSample (packSample v) = v) ∧
  (∀ ws : List Sample, windowOfBytes (bytesOfWindow ws) = some ws ∧ (bytesOfWindow ws).length = 4 * ws.length ∧
    ∀ k (h : k < 4 * ws.length), (bytesOfWindow ws)[k]? =
      some (BitVec.ofNat 8 ((packSample (ws[k / 4]'(by omega))).toNat / 2 ^ (8 * (k % 4))))) ∧
  (∀ (m : Memory) (a : Nat) (b : Byte), (a, b) ∈ m.cells ↔
    ∃ v, (a / 4, v) ∈ m ∧ b = BitVec.ofNat 8 ((packSample v).toNat / 2 ^ (8 * (a % 4)))) ∧
  ∀ (rom : Vector S16 31) (k : Nat), coeffByte rom k =
    if h : k < 62 then some (BitVec.ofNat 8 ((rom[k / 2]'(by omega)).toNat / 2 ^ (8 * (k % 2)))) else none

/-- 10 R40, R41, 20 R64: no step of the machine, the engine's or the host's, writes the coefficient table, the
microprogram or the parameters. -/
def Obligations.ConstantsNeverChange : Prop :=
  ∀ s t : State, step s = .next t →
    t.coeffRom = s.coeffRom ∧ t.uprog = s.uprog ∧ t.srsRound = s.srsRound ∧ t.srsSat = s.srsSat

/-- 60 R129: a step of one instance of a platform changes no other instance. -/
def Obligations.InstancesAreIndependent : Prop :=
  ∀ (p q : Platform) (k : Nat), p.stepAt k = some (.next q) →
    q.instances.length = p.instances.length ∧ (∀ j, j ≠ k → q.instances[j]? = p.instances[j]?) ∧
    ∃ s t, p.instances[k]? = some s ∧ q.instances[k]? = some t ∧ step s = .next t

/-! ## The invariant of every step -/

/-- 10 R28, R34, 20 R45, R47, R53, 60 R116: every step keeps the invariant, whatever the microprogram: `OUT` canonical;
at most one of BUSY, DONE and FAULT; FCODE the fault's code; `IP` and `OP` aligned and within the buffers while BUSY;
`CREG` all `⊥` or the table. Three of its clauses are about the model's own choices: the window's length fits 32 bits
(log 13), the host has seen DONE only if it is 1 (log 4), and a fault is recorded exactly while FAULT is 1 (log 19). -/
def Obligations.EveryStepKeepsTheInvariant : Prop := ∀ s t : State, Inv s → step s = .next t → Inv t

/-- 70 R132: both invariants hold of the block after reset, which has no invocation running (with the clauses of logs 4,
13 and 19, the model's choices, among them). -/
def Obligations.ResetMeetsTheInvariants : Prop := Inv State.reset ∧ Tracks State.reset ∧ State.reset.status.busy = false
end

