-- ==== Sys2Proof/Laws/Memory.lean ====
section
/-!
SUPPORT. What the operations on `OUT` do: read after write, the canonical form, and the byte view.
-/
namespace Sys2Proof.Machine

/-- Every listed index lies at or above `n`. -/
def Memory.atLeast (n : Nat) (m : Memory) : Prop := ∀ p ∈ m, n ≤ p.1

theorem Memory.wf_cons_iff (i : Nat) (v : Sample) (m : Memory) :
    Memory.wf ((i, v) :: m) = true ↔ Memory.atLeast (i + 1) m ∧ Memory.wf m = true := by
  induction m generalizing i v with
  | nil => simp [Memory.wf, Memory.atLeast]
  | cons p m ih =>
    obtain ⟨j, w⟩ := p
    have hj := ih j w
    rw [Memory.wf, Bool.and_eq_true, decide_eq_true_eq]
    constructor
    · rintro ⟨hlt, hm⟩
      refine ⟨fun p hp => ?_, hm⟩
      rcases List.mem_cons.mp hp with rfl | hp
      · exact hlt
      · have := (hj.mp hm).1 p hp
        omega
    · rintro ⟨hge, hm⟩
      exact ⟨hge (j, w) (List.mem_cons_self ..), hm⟩

theorem Memory.read_of_atLeast {n i : Nat} {m : Memory} (h : Memory.atLeast n m) (hi : i < n) :
    Memory.read m i = none := by
  induction m with
  | nil => rfl
  | cons p m ih =>
    obtain ⟨j, w⟩ := p
    have hj : n ≤ j := h (j, w) (List.mem_cons_self ..)
    rw [Memory.read, if_neg (by omega)]
    exact ih fun p hp => h p (List.mem_cons_of_mem _ hp)

theorem Memory.read_entry (i k : Nat) (v : Option Sample) (m : Memory) :
    Memory.read (Memory.entry i v ++ m) k = if i = k ∧ v.isSome then v else Memory.read m k := by
  cases v <;> simp [Memory.entry, Memory.read]

theorem Memory.write_atLeast {n i : Nat} {m : Memory} {v : Option Sample} (h : Memory.atLeast n m) (hi : n ≤ i) :
    Memory.atLeast n (Memory.write m i v) := by
  have hentry : ∀ p ∈ Memory.entry i v, n ≤ p.1 := by cases v <;> simp [Memory.entry, hi]
  induction m with
  | nil => exact hentry
  | cons p m ih =>
    obtain ⟨j, w⟩ := p
    have htail : Memory.atLeast n m := fun p hp => h p (List.mem_cons_of_mem _ hp)
    intro p hp
    rw [Memory.write] at hp
    split at hp
    · rcases List.mem_append.mp hp with hp | hp
      · exact hentry p hp
      · exact h p hp
    · split at hp
      · rcases List.mem_append.mp hp with hp | hp
        · exact hentry p hp
        · exact htail p hp
      · rcases List.mem_cons.mp hp with rfl | hp
        · exact h (j, w) (List.mem_cons_self ..)
        · exact ih htail p hp

/-- A write keeps the canonical form. -/
theorem Memory.write_wf {m : Memory} (h : m.wf = true) (i : Nat) (v : Option Sample) :
    (Memory.write m i v).wf = true := by
  induction m with
  | nil => cases v <;> rfl
  | cons p m ih =>
    obtain ⟨j, w⟩ := p
    obtain ⟨hge, hm⟩ := (Memory.wf_cons_iff j w m).mp h
    rw [Memory.write]
    split
    · rename_i hlt
      cases v with
      | none => exact h
      | some v =>
        refine (Memory.wf_cons_iff i v _).mpr ⟨fun p hp => ?_, h⟩
        rcases List.mem_cons.mp hp with rfl | hp
        · exact hlt
        · have := hge p hp
          omega
    · split
      · rename_i heq
        cases v with
        | none => exact hm
        | some v => exact (Memory.wf_cons_iff i v m).mpr ⟨heq ▸ hge, hm⟩
      · exact (Memory.wf_cons_iff j w _).mpr ⟨Memory.write_atLeast hge (by omega), ih hm⟩

/-- A read after a write: the value written at that index, the old value at every other. -/
theorem Memory.read_write {m : Memory} (h : m.wf = true) (i k : Nat) (v : Option Sample) :
    (Memory.write m i v).read k = if k = i then v else m.read k := by
  induction m with
  | nil => cases v <;> simp [Memory.write, Memory.entry, Memory.read, eq_comm]
  | cons p m ih =>
    obtain ⟨j, w⟩ := p
    obtain ⟨hge, hm⟩ := (Memory.wf_cons_iff j w m).mp h
    rw [Memory.write]
    split
    · rename_i hlt
      rw [Memory.read_entry]
      by_cases hk : k = i
      · subst hk
        have hnone : Memory.read ((j, w) :: m) k = none := by
          rw [Memory.read, if_neg (by omega)]
          exact Memory.read_of_atLeast hge (by omega)
        cases v <;> simp [hnone]
      · rw [if_neg hk, if_neg (by omega)]
    · split
      · rename_i heq
        subst heq
        rw [Memory.read_entry, Memory.read]
        by_cases hk : k = i
        · subst hk
          cases v <;> simp [Memory.read_of_atLeast hge (Nat.lt_succ_self k)]
        · rw [if_neg hk, if_neg (by omega), if_neg (by omega)]
      · rw [Memory.read, ih hm, Memory.read]
        split
        · rename_i heq
          rw [if_neg (by omega)]
        · rfl

/-- A read after a write of a sample, in any memory. -/
theorem Memory.read_write_some (m : Memory) (i k : Nat) (v : Sample) :
    (Memory.write m i (some v)).read k = if k = i then some v else m.read k := by
  induction m with
  | nil => simp [Memory.write, Memory.entry, Memory.read, eq_comm]
  | cons p m ih =>
    obtain ⟨j, w⟩ := p
    rw [Memory.write]
    split
    · rw [Memory.read_entry]
      simp [eq_comm]
    · split
      · rename_i heq
        subst heq
        rw [Memory.read_entry, Memory.read]
        by_cases hk : k = i
        · simp [hk]
        · rw [if_neg (by simp; omega), if_neg hk, if_neg (by omega)]
      · rw [Memory.read, ih, Memory.read]
        split
        · rw [if_neg (by omega)]
        · rfl

/-- Consecutive writes keep the canonical form. -/
theorem Memory.writeFrom_wf {m : Memory} (h : m.wf = true) (i : Nat) (vs : List (Option Sample)) :
    (Memory.writeFrom m i vs).wf = true := by
  induction vs generalizing m i with
  | nil => exact h
  | cons v vs ih => exact ih (Memory.write_wf h i v) (i + 1)

/-- A read after consecutive writes: the `n`-th value at index `i + n`, the old value outside them. -/
theorem Memory.read_writeFrom {m : Memory} (h : m.wf = true) (i k : Nat) (vs : List (Option Sample)) :
    (Memory.writeFrom m i vs).read k = if hk : i ≤ k ∧ k < i + vs.length then vs[k - i]'(by omega) else m.read k := by
  induction vs generalizing m i with
  | nil => rw [dif_neg (by simp)]; rfl
  | cons v vs ih =>
    rw [Memory.writeFrom, ih (Memory.write_wf h i v), Memory.read_write h]
    by_cases hki : k = i
    · subst hki
      rw [dif_neg (by omega), if_pos rfl, dif_pos (by simp)]
      simp
    · rw [if_neg hki]
      by_cases hk : i + 1 ≤ k ∧ k < i + 1 + vs.length
      · rw [dif_pos hk, dif_pos (by simp; omega)]
        rw [List.getElem_cons, dif_neg (by omega)]
        congr 1
      · rw [dif_neg hk, dif_neg (by simp; omega)]

theorem State.reset_memory_wf : State.reset.out.wf = true := rfl

/-- Packing a sample and unpacking it gives it back (20_memory.md R50). -/
theorem unpackSample_packSample (v : Sample) : unpackSample (packSample v) = v := by
  obtain ⟨re, im⟩ := v
  simp only [unpackSample, packSample, Sample.mk.injEq]
  constructor <;> apply BitVec.eq_of_getLsbD_eq <;> intro i hi
  · rw [BitVec.getLsbD_extractLsb']
    exact (congrArg _ (BitVec.getLsbD_append (x := im) (y := re))).trans (by simp [hi])
  · rw [BitVec.getLsbD_extractLsb']
    exact (congrArg _ (BitVec.getLsbD_append (x := im) (y := re))).trans (by simp [hi])

end Sys2Proof.Machine
end

