-- ==== Sys2Proof/Laws/State.lean ====
section
/-!
SUPPORT. What each named update of State leaves in each field, so that no later proof unfolds an update.
-/
namespace Sys2Proof.Machine

/-! ## Raising a fault -/

@[simp] theorem raise_status (s : State) (f : FaultInfo) : (s.raise f).status = statusFaulted s.status f := rfl
@[simp] theorem raise_nout (s : State) (f : FaultInfo) : (s.raise f).nout = s.nout := rfl
@[simp] theorem raise_upc (s : State) (f : FaultInfo) : (s.raise f).upc = s.upc := rfl
@[simp] theorem raise_trip (s : State) (f : FaultInfo) : (s.raise f).trip = s.trip := rfl
@[simp] theorem raise_ip (s : State) (f : FaultInfo) : (s.raise f).ip = s.ip := rfl
@[simp] theorem raise_op (s : State) (f : FaultInfo) : (s.raise f).op = s.op := rfl
@[simp] theorem raise_creg (s : State) (f : FaultInfo) : (s.raise f).creg = s.creg := rfl
@[simp] theorem raise_sb (s : State) (f : FaultInfo) : (s.raise f).sb = s.sb := rfl
@[simp] theorem raise_acc0 (s : State) (f : FaultInfo) : (s.raise f).acc0 = s.acc0 := rfl
@[simp] theorem raise_acc1 (s : State) (f : FaultInfo) : (s.raise f).acc1 = s.acc1 := rfl
@[simp] theorem raise_ov0 (s : State) (f : FaultInfo) : (s.raise f).ov0 = s.ov0 := rfl
@[simp] theorem raise_ov1 (s : State) (f : FaultInfo) : (s.raise f).ov1 = s.ov1 := rfl
@[simp] theorem raise_coeffRom (s : State) (f : FaultInfo) : (s.raise f).coeffRom = s.coeffRom := rfl
@[simp] theorem raise_uprog (s : State) (f : FaultInfo) : (s.raise f).uprog = s.uprog := rfl
@[simp] theorem raise_srsRound (s : State) (f : FaultInfo) : (s.raise f).srsRound = s.srsRound := rfl
@[simp] theorem raise_srsSat (s : State) (f : FaultInfo) : (s.raise f).srsSat = s.srsSat := rfl
@[simp] theorem raise_inp (s : State) (f : FaultInfo) : (s.raise f).inp = s.inp := rfl
@[simp] theorem raise_out (s : State) (f : FaultInfo) : (s.raise f).out = s.out := rfl
@[simp] theorem raise_faultInfo (s : State) (f : FaultInfo) : (s.raise f).faultInfo = some f := rfl
@[simp] theorem raise_turns (s : State) (f : FaultInfo) : (s.raise f).turns = s.turns := rfl
@[simp] theorem raise_reply (s : State) (f : FaultInfo) : (s.raise f).reply = s.reply := rfl
@[simp] theorem raise_doneSeen (s : State) (f : FaultInfo) : (s.raise f).doneSeen = s.doneSeen := rfl
@[simp] theorem raise_freeCount (s : State) (f : FaultInfo) : (s.raise f).freeCount = s.freeCount := rfl
@[simp] theorem raise_freeStream (s : State) (f : FaultInfo) : (s.raise f).freeStream = s.freeStream := rfl

/-! ## The sequential advance -/

@[simp] theorem advance_status (s : State) : (s.advance).status = s.status := rfl
@[simp] theorem advance_nout (s : State) : (s.advance).nout = s.nout := rfl
@[simp] theorem advance_upc (s : State) : (s.advance).upc = s.upc + 1#5 := rfl
@[simp] theorem advance_trip (s : State) : (s.advance).trip = s.trip := rfl
@[simp] theorem advance_ip (s : State) : (s.advance).ip = s.ip := rfl
@[simp] theorem advance_op (s : State) : (s.advance).op = s.op := rfl
@[simp] theorem advance_creg (s : State) : (s.advance).creg = s.creg := rfl
@[simp] theorem advance_sb (s : State) : (s.advance).sb = s.sb := rfl
@[simp] theorem advance_acc0 (s : State) : (s.advance).acc0 = s.acc0 := rfl
@[simp] theorem advance_acc1 (s : State) : (s.advance).acc1 = s.acc1 := rfl
@[simp] theorem advance_ov0 (s : State) : (s.advance).ov0 = s.ov0 := rfl
@[simp] theorem advance_ov1 (s : State) : (s.advance).ov1 = s.ov1 := rfl
@[simp] theorem advance_coeffRom (s : State) : (s.advance).coeffRom = s.coeffRom := rfl
@[simp] theorem advance_uprog (s : State) : (s.advance).uprog = s.uprog := rfl
@[simp] theorem advance_srsRound (s : State) : (s.advance).srsRound = s.srsRound := rfl
@[simp] theorem advance_srsSat (s : State) : (s.advance).srsSat = s.srsSat := rfl
@[simp] theorem advance_inp (s : State) : (s.advance).inp = s.inp := rfl
@[simp] theorem advance_out (s : State) : (s.advance).out = s.out := rfl
@[simp] theorem advance_faultInfo (s : State) : (s.advance).faultInfo = s.faultInfo := rfl
@[simp] theorem advance_turns (s : State) : (s.advance).turns = s.turns := rfl
@[simp] theorem advance_reply (s : State) : (s.advance).reply = s.reply := rfl
@[simp] theorem advance_doneSeen (s : State) : (s.advance).doneSeen = s.doneSeen := rfl
@[simp] theorem advance_freeCount (s : State) : (s.advance).freeCount = s.freeCount := rfl
@[simp] theorem advance_freeStream (s : State) : (s.advance).freeStream = s.freeStream := rfl

/-! ## An accepted START -/

@[simp] theorem begin_status (s : State) : (s.begin).status = statusStarted s.status := rfl
@[simp] theorem begin_nout (s : State) : (s.begin).nout = s.nout := rfl
@[simp] theorem begin_upc (s : State) : (s.begin).upc = 0#5 := rfl
@[simp] theorem begin_trip (s : State) : (s.begin).trip = BitVec.ofNat 32 (s.nout.toNat / 64) := rfl
@[simp] theorem begin_ip (s : State) : (s.begin).ip = 0#32 := rfl
@[simp] theorem begin_op (s : State) : (s.begin).op = 0#32 := rfl
@[simp] theorem begin_creg (s : State) : (s.begin).creg = Vector.replicate 32 none := rfl
@[simp] theorem begin_sb (s : State) : (s.begin).sb = Vector.replicate 32 none := rfl
@[simp] theorem begin_acc0 (s : State) : (s.begin).acc0 = Vector.replicate 8 none := rfl
@[simp] theorem begin_acc1 (s : State) : (s.begin).acc1 = Vector.replicate 8 none := rfl
@[simp] theorem begin_ov0 (s : State) : (s.begin).ov0 = Vector.replicate 8 none := rfl
@[simp] theorem begin_ov1 (s : State) : (s.begin).ov1 = Vector.replicate 8 none := rfl
@[simp] theorem begin_coeffRom (s : State) : (s.begin).coeffRom = s.coeffRom := rfl
@[simp] theorem begin_uprog (s : State) : (s.begin).uprog = s.uprog := rfl
@[simp] theorem begin_srsRound (s : State) : (s.begin).srsRound = s.srsRound := rfl
@[simp] theorem begin_srsSat (s : State) : (s.begin).srsSat = s.srsSat := rfl
@[simp] theorem begin_inp (s : State) : (s.begin).inp = s.inp := rfl
@[simp] theorem begin_out (s : State) : (s.begin).out = [] := rfl
@[simp] theorem begin_faultInfo (s : State) : (s.begin).faultInfo = s.faultInfo := rfl
@[simp] theorem begin_turns (s : State) : (s.begin).turns = s.turns := rfl
@[simp] theorem begin_reply (s : State) : (s.begin).reply = s.reply := rfl
@[simp] theorem begin_doneSeen (s : State) : (s.begin).doneSeen = false := rfl
@[simp] theorem begin_freeCount (s : State) : (s.begin).freeCount = s.freeCount := rfl
@[simp] theorem begin_freeStream (s : State) : (s.begin).freeStream = s.freeStream := rfl

/-! ## Reset -/

@[simp] theorem applyReset_status (s : State) : (s.applyReset).status = { busy := false, done := false, fault := false, fcode := 0#4 } := rfl
@[simp] theorem applyReset_nout (s : State) : (s.applyReset).nout = 0#32 := rfl
@[simp] theorem applyReset_upc (s : State) : (s.applyReset).upc = 0#5 := rfl
@[simp] theorem applyReset_trip (s : State) : (s.applyReset).trip = 0#32 := rfl
@[simp] theorem applyReset_ip (s : State) : (s.applyReset).ip = 0#32 := rfl
@[simp] theorem applyReset_op (s : State) : (s.applyReset).op = 0#32 := rfl
@[simp] theorem applyReset_creg (s : State) : (s.applyReset).creg = Vector.replicate 32 none := rfl
@[simp] theorem applyReset_sb (s : State) : (s.applyReset).sb = Vector.replicate 32 none := rfl
@[simp] theorem applyReset_acc0 (s : State) : (s.applyReset).acc0 = Vector.replicate 8 none := rfl
@[simp] theorem applyReset_acc1 (s : State) : (s.applyReset).acc1 = Vector.replicate 8 none := rfl
@[simp] theorem applyReset_ov0 (s : State) : (s.applyReset).ov0 = Vector.replicate 8 none := rfl
@[simp] theorem applyReset_ov1 (s : State) : (s.applyReset).ov1 = Vector.replicate 8 none := rfl
@[simp] theorem applyReset_coeffRom (s : State) : (s.applyReset).coeffRom = s.coeffRom := rfl
@[simp] theorem applyReset_uprog (s : State) : (s.applyReset).uprog = s.uprog := rfl
@[simp] theorem applyReset_srsRound (s : State) : (s.applyReset).srsRound = s.srsRound := rfl
@[simp] theorem applyReset_srsSat (s : State) : (s.applyReset).srsSat = s.srsSat := rfl
@[simp] theorem applyReset_inp (s : State) : (s.applyReset).inp = s.inp := rfl
@[simp] theorem applyReset_out (s : State) : (s.applyReset).out = s.out := rfl
@[simp] theorem applyReset_faultInfo (s : State) : (s.applyReset).faultInfo = none := rfl
@[simp] theorem applyReset_turns (s : State) : (s.applyReset).turns = s.turns := rfl
@[simp] theorem applyReset_reply (s : State) : (s.applyReset).reply = s.reply := rfl
@[simp] theorem applyReset_doneSeen (s : State) : (s.applyReset).doneSeen = false := rfl
@[simp] theorem applyReset_freeCount (s : State) : (s.applyReset).freeCount = s.freeCount := rfl
@[simp] theorem applyReset_freeStream (s : State) : (s.applyReset).freeStream = s.freeStream := rfl

/-! ## The status -/

@[simp] theorem statusFaulted_busy (t : Status) (f : FaultInfo) : (statusFaulted t f).busy = false := rfl
@[simp] theorem statusFaulted_done (t : Status) (f : FaultInfo) : (statusFaulted t f).done = t.done := rfl
@[simp] theorem statusFaulted_fault (t : Status) (f : FaultInfo) : (statusFaulted t f).fault = true := rfl
@[simp] theorem statusFaulted_fcode (t : Status) (f : FaultInfo) : (statusFaulted t f).fcode = faultCode f := rfl
@[simp] theorem statusStarted_busy (t : Status) : (statusStarted t).busy = true := rfl
@[simp] theorem statusStarted_done (t : Status) : (statusStarted t).done = false := rfl
@[simp] theorem statusStarted_fault (t : Status) : (statusStarted t).fault = t.fault := rfl
@[simp] theorem statusStarted_fcode (t : Status) : (statusStarted t).fcode = t.fcode := rfl
@[simp] theorem statusCompleted_busy (t : Status) : (statusCompleted t).busy = false := rfl
@[simp] theorem statusCompleted_done (t : Status) : (statusCompleted t).done = true := rfl
@[simp] theorem statusCompleted_fault (t : Status) : (statusCompleted t).fault = t.fault := rfl
@[simp] theorem statusCompleted_fcode (t : Status) : (statusCompleted t).fcode = t.fcode := rfl

/-! ## The instances of a platform -/

/-- Every instance of a platform starts in the reset state, with a stream of free values of its own (log 10). -/
theorem Platform.reset_instance {k : Nat} {s : State} (h : Platform.reset.instances[k]? = some s) :
    s = { State.reset with freeStream := k } := by
  simp only [Platform.reset, List.getElem?_map, Option.map_eq_some_iff, List.getElem?_eq_some_iff,
    List.getElem_range] at h
  obtain ⟨_, ⟨-, rfl⟩, rfl⟩ := h
  rfl

end Sys2Proof.Machine
end

