-- ==== Sys2Proof/Laws/Ops.lean ====
section
/-!
SUPPORT. Everything each shared operation can do, said once.
-/
namespace Sys2Proof.Machine

theorem next_inj {s t : State} :
    (Host.Outcome.next s : Host.Outcome State Fault Refusal) = .next t ↔ s = t :=
  ⟨fun h => by injection h, fun h => by rw [h]⟩

theorem takeFault_next {f : FaultInfo} {s t : State} : takeFault f s = .next t ↔ t = s.raise f := by
  rw [takeFault, next_inj]
  exact eq_comm

/-- A sequential micro-op that answers a next state overflowed, raised its own fault, or had its effect and advanced. -/
theorem runSequential_cases {effect : State → Except FaultInfo State} {s t : State}
    (h : runSequential effect s = .next t) :
    (s.upc = 31#5 ∧ t = s.raise (.upcOverflow s.upc)) ∨
    (s.upc ≠ 31#5 ∧ ∃ f, effect s = .error f ∧ t = s.raise f) ∨
    (s.upc ≠ 31#5 ∧ ∃ u, effect s = .ok u ∧ t = u.advance) := by
  rw [runSequential] at h
  split at h
  · exact .inl ⟨‹_›, takeFault_next.mp h⟩
  · split at h
    · exact .inr (.inr ⟨‹_›, _, ‹_›, (next_inj.mp h).symm⟩)
    · exact .inr (.inl ⟨‹_›, _, ‹_›, takeFault_next.mp h⟩)

theorem runSequential_overflow {effect : State → Except FaultInfo State} {s : State} (h : s.upc = 31#5) :
    runSequential effect s = .next (s.raise (.upcOverflow s.upc)) := by
  rw [runSequential, if_pos h]; rfl

theorem runSequential_ok {effect : State → Except FaultInfo State} {s u : State} (h : s.upc ≠ 31#5)
    (he : effect s = .ok u) : runSequential effect s = .next u.advance := by
  rw [runSequential, if_neg h, he]

theorem runSequential_error {effect : State → Except FaultInfo State} {s : State} {f : FaultInfo}
    (h : s.upc ≠ 31#5) (he : effect s = .error f) : runSequential effect s = .next (s.raise f) := by
  rw [runSequential, if_neg h, he]; rfl

theorem firstUndef_none {s : State} {es : List Elem} :
    s.firstUndef es = none ↔ ∀ e ∈ es, s.isDefined e = true := by
  simp [State.firstUndef, List.find?_eq_none]

/-- The check passes where every element is defined. -/
theorem checkDefined_defined {s : State} {es : List Elem} {rest : Except FaultInfo State}
    (h : ∀ e ∈ es, s.isDefined e = true) : s.checkDefined es rest = rest := by
  rw [State.checkDefined, firstUndef_none.mpr h]

/-- The check raises `UNDEF_READ` with the first undefined element, or passes with every element defined. -/
theorem checkDefined_cases (s : State) (es : List Elem) (rest : Except FaultInfo State) :
    (∃ e ∈ es, s.isDefined e = false ∧ s.firstUndef es = some e ∧
      s.checkDefined es rest = .error (.undefRead s.upc e)) ∨
    ((∀ e ∈ es, s.isDefined e = true) ∧ s.checkDefined es rest = rest) := by
  cases h : s.firstUndef es with
  | none =>
    have hd := firstUndef_none.mp h
    exact .inr ⟨hd, checkDefined_defined hd⟩
  | some e =>
    refine .inl ⟨e, List.mem_of_find?_eq_some h, ?_, rfl, by rw [State.checkDefined, h]⟩
    simpa using List.find?_some h

/-- Where every term is a value, the sum is their sum. -/
theorem sumDefined_some {n : Nat} {f : Nat → Option Int} {g : Nat → Int} (h : ∀ k < n, f k = some (g k)) :
    sumDefined n f = some (∑ k ∈ Finset.range n, g k) := by
  induction n with
  | zero => rfl
  | succ n ih =>
    rw [sumDefined, ih fun k hk => h k (by omega), h n (by omega), Finset.sum_range_succ]

/-- An exact value that fits 48 bits is held exactly. -/
theorem ofInt48_toInt {a : Int} (h : -2 ^ 47 ≤ a ∧ a < 2 ^ 47) : (BitVec.ofInt 48 a).toInt = a := by
  rw [BitVec.toInt_ofInt, Int.bmod_def]
  omega

end Sys2Proof.Machine
end

