-- ==== Sys2Proof/Laws/Exec.lean ====
section
/-!
SUPPORT. For each micro-op, everything its meaning can answer: a fault state, or the one effect of its rule.
-/
namespace Sys2Proof.Machine

theorem execLdc_cases {s t : State} (h : execLdc s = .next t) :
    (∃ f, t = s.raise f) ∨
    (s.upc ≠ 31#5 ∧ t = { s with creg := loadedCreg s.coeffRom, upc := s.upc + 1#5 }) := by
  rcases runSequential_cases h with ⟨-, rfl⟩ | ⟨-, f, -, rfl⟩ | ⟨hu, u, he, rfl⟩
  · exact .inl ⟨_, rfl⟩
  · exact .inl ⟨_, rfl⟩
  · rw [ldcEffect, Except.ok.injEq] at he
    subst he
    exact .inr ⟨hu, rfl⟩

theorem execUpd_cases {slot : BitVec 2} {s t : State} (h : execUpd slot s = .next t) :
    (∃ f, t = s.raise f) ∨
    (s.upc ≠ 31#5 ∧ s.ip.toNat + 8 ≤ s.inp.length ∧
      t = { s with sb := fillSlot slot s.inp s.ip.toNat s.sb, ip := s.ip + 8#32, upc := s.upc + 1#5 }) := by
  rcases runSequential_cases h with ⟨-, rfl⟩ | ⟨-, f, -, rfl⟩ | ⟨hu, u, he, rfl⟩
  · exact .inl ⟨_, rfl⟩
  · exact .inl ⟨_, rfl⟩
  · rw [updEffect] at he
    split at he
    · cases he
    · rw [Except.ok.injEq] at he
      subst he
      exact .inr ⟨hu, by omega, rfl⟩

theorem execMulsym_cases {x : BitVec 5} {s t : State} (h : execMulsym x s = .next t) :
    (∃ f, t = s.raise f) ∨
    (s.upc ≠ 31#5 ∧ (∀ e ∈ mulsymReads x, s.isDefined e = true) ∧
      t = { s with acc0 := Vector.ofFn fun l => symLane s x l.val, upc := s.upc + 1#5 }) := by
  rcases runSequential_cases h with ⟨-, rfl⟩ | ⟨-, f, -, rfl⟩ | ⟨hu, u, he, rfl⟩
  · exact .inl ⟨_, rfl⟩
  · exact .inl ⟨_, rfl⟩
  · rw [mulsymEffect] at he
    rcases checkDefined_cases s (mulsymReads x) _ with ⟨e, -, -, -, hc⟩ | ⟨hd, hc⟩
    · rw [hc] at he
      cases he
    · rw [hc, Except.ok.injEq] at he
      subst he
      exact .inr ⟨hu, hd, rfl⟩

theorem execMulctr_cases {x : BitVec 5} {s t : State} (h : execMulctr x s = .next t) :
    (∃ f, t = s.raise f) ∨
    (s.upc ≠ 31#5 ∧ (∀ e ∈ mulctrReads x, s.isDefined e = true) ∧
      t = { s with acc1 := Vector.ofFn fun l => ctrLane s x l.val, upc := s.upc + 1#5 }) := by
  rcases runSequential_cases h with ⟨-, rfl⟩ | ⟨-, f, -, rfl⟩ | ⟨hu, u, he, rfl⟩
  · exact .inl ⟨_, rfl⟩
  · exact .inl ⟨_, rfl⟩
  · rw [mulctrEffect] at he
    rcases checkDefined_cases s (mulctrReads x) _ with ⟨e, -, -, -, hc⟩ | ⟨hd, hc⟩
    · rw [hc] at he
      cases he
    · rw [hc, Except.ok.injEq] at he
      subst he
      exact .inr ⟨hu, hd, rfl⟩

theorem execSrszip_cases {sh : BitVec 5} {s t : State} (h : execSrszip sh s = .next t) :
    (∃ f, t = s.raise f) ∨
    (sh = 15#5 ∧ s.upc ≠ 31#5 ∧ (∀ e ∈ srszipReads, s.isDefined e = true) ∧
      t = { s with
        ov0 := Vector.ofFn fun i => zipLane s i.val
        ov1 := Vector.ofFn fun i => zipLane s (8 + i.val)
        upc := s.upc + 1#5 }) := by
  rw [execSrszip] at h
  split at h
  · rcases runSequential_cases h with ⟨-, rfl⟩ | ⟨-, f, -, rfl⟩ | ⟨hu, u, he, rfl⟩
    · exact .inl ⟨_, rfl⟩
    · exact .inl ⟨_, rfl⟩
    · rw [srszipEffect] at he
      rcases checkDefined_cases s srszipReads _ with ⟨e, -, -, -, hc⟩ | ⟨hd, hc⟩
      · rw [hc] at he
        cases he
      · rw [hc, Except.ok.injEq] at he
        subst he
        exact .inr ⟨‹_›, hu, hd, rfl⟩
  · exact .inl ⟨_, takeFault_next.mp h⟩

theorem execWr_cases {s t : State} (h : execWr s = .next t) :
    (∃ f, t = s.raise f) ∨
    (s.upc ≠ 31#5 ∧ (∀ e ∈ wrReads, s.isDefined e = true) ∧ s.op.toNat + 16 ≤ s.nout.toNat ∧
      t = { s with
        out := s.out.writeFrom s.op.toNat (s.ov0.toList ++ s.ov1.toList)
        op := s.op + 16#32
        upc := s.upc + 1#5 }) := by
  rcases runSequential_cases h with ⟨-, rfl⟩ | ⟨-, f, -, rfl⟩ | ⟨hu, u, he, rfl⟩
  · exact .inl ⟨_, rfl⟩
  · exact .inl ⟨_, rfl⟩
  · rw [wrEffect] at he
    rcases checkDefined_cases s wrReads _ with ⟨e, -, -, -, hc⟩ | ⟨hd, hc⟩
    · rw [hc] at he
      cases he
    · rw [hc] at he
      split at he
      · cases he
      · rw [Except.ok.injEq] at he
        subst he
        exact .inr ⟨hu, hd, by omega, rfl⟩

theorem execLoop_cases {tgt : UpcWord} {s t : State} (h : execLoop tgt s = .next t) :
    (∃ f, t = s.raise f) ∨
    (s.trip ≠ 0#32 ∧ s.trip ≠ 1#32 ∧ t = { s with trip := s.trip - 1#32, upc := tgt }) ∨
    (s.trip = 1#32 ∧ s.upc ≠ 31#5 ∧ t = { s with trip := 0#32, upc := s.upc + 1#5 }) := by
  rw [execLoop] at h
  split at h
  · exact .inl ⟨_, takeFault_next.mp h⟩
  · split at h
    · rename_i h0 h1
      exact .inr (.inl ⟨h0, fun hc => h1 (by rw [hc]; rfl), (next_inj.mp h).symm⟩)
    · rename_i h0 h1
      have htrip : s.trip = 1#32 := by bv_omega
      split at h
      · exact .inl ⟨_, takeFault_next.mp h⟩
      · exact .inr (.inr ⟨htrip, ‹_›, (next_inj.mp h).symm⟩)

theorem execDone_cases {s t : State} (h : execDone s = .next t) :
    t = { s with status := statusCompleted s.status } :=
  (next_inj.mp h).symm

end Sys2Proof.Machine
end

