-- ==== Sys2Proof/Laws/PerInstr.lean ====
section
/-!
SUPPORT. Statements made once per constructor of Instr: a legal micro-op's word selects its kind's row of the opcode
map (30_encoding.md R70).
-/
namespace Sys2Proof.Laws

/-- The word of a legal micro-op selects the row of its kind. -/
def SelectsRow.Statement (i : Instr) : Prop := i.wf = true → Safety.selects (encode i) (Safety.opcodeRow i) = true

theorem SelectsRow.ldc : SelectsRow.Statement .ldc := fun _ => by decide

theorem SelectsRow.upd (slot : BitVec 2) : SelectsRow.Statement (.upd slot) := fun _ => by
  revert slot
  decide

theorem SelectsRow.mulsym (xoff : BitVec 5) : SelectsRow.Statement (.mulsym xoff) := fun _ => by
  revert xoff
  decide

theorem SelectsRow.mulctr (xoff : BitVec 5) : SelectsRow.Statement (.mulctr xoff) := fun _ => by
  revert xoff
  decide

theorem SelectsRow.srszip (sh : BitVec 5) : SelectsRow.Statement (.srszip sh) := fun h => by
  have hsh : sh = 15#5 := by simpa [Instr.wf] using h
  subst hsh
  decide

theorem SelectsRow.wr : SelectsRow.Statement .wr := fun _ => by decide

theorem SelectsRow.loop (tgt : UpcWord) : SelectsRow.Statement (.loop tgt) := fun _ => by
  revert tgt
  decide

theorem SelectsRow.done : SelectsRow.Statement .done := fun _ => by decide

end Sys2Proof.Laws
end

