-- ==== Sys2Proof/Laws/Step.lean ====
section
/-!
SUPPORT. Everything a step can do: one inversion lemma for the fetch, the engine's step, the host's moves and the step.
-/
namespace Sys2Proof.Machine

theorem fetch_uop {s : State} {i : Instr} (h : fetch s = .uop i) :
    s.status.busy = true ∧ s.status.fault = false ∧ decode s.fetchWord = .uop i := by
  rw [fetch] at h
  split at h
  · cases h
  · split at h
    · cases h
    · split at h
      · simp_all
      · cases h

theorem fetch_illegal {s : State} {w : UopWord} (h : fetch s = .illegal w) :
    s.status.busy = true ∧ s.status.fault = false ∧ decode s.fetchWord = .illegal w := by
  rw [fetch] at h
  split at h
  · cases h
  · split at h
    · cases h
    · split at h
      · cases h
      · simp_all

/-- A busy, unfaulted engine fetches what the word at `upc` decodes to. -/
theorem fetch_busy {s : State} {i : Instr} (hb : s.status.busy = true) (hf : s.status.fault = false)
    (hd : decode s.fetchWord = .uop i) : fetch s = .uop i := by
  simp [fetch, hb, hf, hd]

/-- The engine's step, where it answers a next state: an illegal word's fault, or the micro-op's meaning. -/
theorem engineStep_cases {s t : State} (h : engineStep s = .next t) :
    s.status.busy = true ∧ s.status.fault = false ∧
    ((∃ w, decode s.fetchWord = .illegal w ∧ t = s.raise (.illegalUop w s.upc)) ∨
      (∃ i, decode s.fetchWord = .uop i ∧ exec i s = .next t)) := by
  rw [engineStep] at h
  split at h
  · cases h
  · rename_i w hw
    obtain ⟨hb, hf, hd⟩ := fetch_illegal hw
    exact ⟨hb, hf, .inl ⟨w, hd, takeFault_next.mp h⟩⟩
  · rename_i i hi
    obtain ⟨hb, hf, hd⟩ := fetch_uop hi
    exact ⟨hb, hf, .inr ⟨i, hd, h⟩⟩

theorem takeTurn_nil {s : State} (h : s.turns = []) : s.takeTurn = (.engine, s) := by
  rw [State.takeTurn, h]

/-- With no turn listed a step is the engine's. -/
theorem step_engine {s : State} (h : s.turns = []) : step s = engineStep s := by
  rw [step, takeTurn_nil h]

/-- A step is the engine's or a host move's, on the state with its turn taken off the list. -/
theorem step_cases {s t : State} (h : step s = .next t) :
    (∃ rest, engineStep { s with turns := rest } = .next t) ∨
    (∃ a rest, s.turns = .host a :: rest ∧ hostMove a { s with turns := rest } = .next t) := by
  cases hs : s.turns with
  | nil =>
    rw [step_engine hs] at h
    have same : { s with turns := [] } = s := by rw [← hs]
    exact .inl ⟨[], same ▸ h⟩
  | cons a rest =>
    rw [step, State.takeTurn, hs] at h
    cases a with
    | engine => exact .inl ⟨rest, h⟩
    | host a => exact .inr ⟨a, rest, rfl, h⟩

theorem hostStart_cases {s t : State} (h : hostStart s = .next t) :
    s.status.busy = false ∧
    ((s.status.fault = true ∧ t = s) ∨
      (s.status.fault = false ∧ legalNout s.nout = true ∧ t = s.begin) ∨
      (s.status.fault = false ∧ legalNout s.nout = false ∧ t = s.rejectStart)) := by
  rw [hostStart] at h
  split at h
  · cases h
  · rename_i hb
    refine ⟨by simpa using hb, ?_⟩
    split at h
    · exact .inl ⟨‹_›, (next_inj.mp h).symm⟩
    · rename_i hf
      split at h
      · exact .inr (.inl ⟨by simpa using hf, ‹_›, (next_inj.mp h).symm⟩)
      · rename_i hn
        exact .inr (.inr ⟨by simpa using hf, by simpa using hn, (next_inj.mp h).symm⟩)

/-- A host move, where it answers a next state, changes nothing but the model's own record of replies; or stores
`NOUT` or the window while BUSY = 0; or is a START; or is a reset. -/
theorem hostMove_cases {a : HostAction} {s t : State} (h : hostMove a s = .next t) :
    (∃ r d n, t = { s with reply := r, doneSeen := d, freeCount := n } ∧
      (d = true → s.doneSeen = true ∨ s.status.done = true)) ∨
    (s.status.busy = false ∧ ∃ v, t = { s with nout := v }) ∨
    (s.status.busy = false ∧ ∃ w, w.length < 2 ^ 32 ∧ t = { s with inp := w }) ∨
    (hostStart s = .next t) ∨
    (a = .reset ∧ t = s.applyReset) := by
  have same : ∀ {u : State}, u = s → ∃ r d n, u = { s with reply := r, doneSeen := d, freeCount := n } ∧
      (d = true → s.doneSeen = true ∨ s.status.done = true) :=
    fun hu => ⟨s.reply, s.doneSeen, s.freeCount, hu, Or.inl⟩
  have fill : ∀ {w : List Sample}, hostFillIn w s = .next t →
      s.status.busy = false ∧ ∃ w : List Sample, w.length < 2 ^ 32 ∧ t = { s with inp := w } := by
    intro w hw
    rw [hostFillIn] at hw
    split at hw
    · cases hw
    · rename_i hb
      split at hw
      · cases hw
      · exact ⟨by simpa using hb, w, by omega, (next_inj.mp hw).symm⟩
  have read : ∀ {view : Sample → Reply} {i : Nat}, hostReadOutAs view i s = .next t →
      ∃ r d n, t = { s with reply := r, doneSeen := d, freeCount := n } ∧
        (d = true → s.doneSeen = true ∨ s.status.done = true) := by
    intro view i hr
    rw [hostReadOutAs] at hr
    split at hr
    · cases hr
    · split at hr
      · exact ⟨_, s.doneSeen, s.freeCount, (next_inj.mp hr).symm, Or.inl⟩
      · exact ⟨_, s.doneSeen, _, (next_inj.mp hr).symm, Or.inl⟩
  cases a with
  | writeReg r v =>
    unfold hostMove hostWriteReg at h
    dsimp only at h
    split at h
    · split at h
      · exact .inr (.inr (.inr (.inl h)))
      · exact .inl (same (next_inj.mp h).symm)
    · rw [next_inj, State.writeNout] at h
      split at h
      · exact .inl (same h.symm)
      · rename_i hb
        exact .inr (.inl ⟨by simpa using hb, v, h.symm⟩)
    · exact .inl (same (next_inj.mp h).symm)
  | readReg r =>
    refine .inl ⟨_, _, s.freeCount, (next_inj.mp h).symm, fun hd => ?_⟩
    simp only [Bool.or_eq_true, Bool.and_eq_true] at hd
    exact hd.imp_right And.right
  | fillIn w => exact .inr (.inr (.inl (fill h)))
  | fillInBytes b =>
    rw [hostMove, hostFillInBytes] at h
    split at h
    · exact .inr (.inr (.inl (fill h)))
    · cases h
  | readOut i => exact .inl (read h)
  | readOutByte k => exact .inl (read h)
  | reset => exact .inr (.inr (.inr (.inr ⟨rfl, (next_inj.mp h).symm⟩)))

end Sys2Proof.Machine
end

