-- ==== Sys2Proof/Tests/Slice0.lean ====
section
/-!
SUPPORT. Small tests, their expected results taken from 95_test_vectors.md or worked out by hand from the rule named.
-/
namespace Sys2Proof.Tests
open Sys2Proof.Machine Sys2Proof.Safety

/-! ## Helpers -/

/-- A sample from two integers. -/
def smp (re im : Int) : Sample := { re := BitVec.ofInt 16 re, im := BitVec.ofInt 16 im }

/-- `EXAMPLE_ROM` (95 section 2). -/
def exampleRom : Vector S16 31 :=
  #v[16, 0, -128, 0, 512, 0, -1024, 0, 2048, 0, -4096, 0, 19056, 32767, 19056, 0, -4096, 0, 2048, 0, -1024, 0, 512, 0,
     -128, 0, 16, 0, 32767, 0, 0]

/-- A busy block with the example table loaded and `SB[k] = (k, -1)` (95 3.4). -/
def loaded : State :=
  { State.reset with
    status := { busy := true, done := false, fault := false, fcode := 0#4 }
    nout := 64#32
    trip := 1#32
    coeffRom := exampleRom
    creg := loadedCreg exampleRom
    sb := Vector.ofFn fun k => some (smp k.val (-1))
    inp := (List.range 48).map fun m => smp m (-m) }

/-- The next state, if the answer is one. -/
def nextState? : Host.Outcome State Fault Refusal → Option State
  | .next t => some t
  | _ => none

/-- `f` of the next state of a micro-op. -/
def after {α : Type} (i : Instr) (s : State) (f : State → α) : Option α := (nextState? (exec i s)).map f

/-- `STATUS`, as the host reads it, after a micro-op. -/
def statusAfter (i : Instr) (s : State) : Option RegWord := after i s fun t => t.readReg 1

/-! ## The decoder -/

theorem test_ill_formed_shift_refused :
    (Instr.srszip 14#5).wf = false ∧ decode (encode (.srszip 14#5)) = .illegal 0x500E#16 := by decide

theorem test_decode_ldc : decode 0x1000#16 = .uop .ldc ∧ decode 0x1001#16 = .illegal 0x1001#16 := by decide

theorem test_decode_upd : decode 0x2003#16 = .uop (.upd 3#2) ∧ decode 0x2004#16 = .illegal 0x2004#16 := by decide

theorem test_decode_mulsym : decode 0x301F#16 = .uop (.mulsym 31#5) ∧ decode 0x3020#16 = .illegal 0x3020#16 := by decide

theorem test_decode_mulctr : decode 0x401C#16 = .uop (.mulctr 28#5) := by decide

theorem test_decode_srszip : decode 0x500F#16 = .uop (.srszip 15#5) ∧ decode 0x5000#16 = .illegal 0x5000#16 := by decide

theorem test_decode_wr : decode 0x6000#16 = .uop .wr ∧ decode 0x6001#16 = .illegal 0x6001#16 := by decide

theorem test_decode_loop : decode 0x701F#16 = .uop (.loop 31#5) ∧ decode 0x7020#16 = .illegal 0x7020#16 := by decide

theorem test_decode_done : decode 0x8000#16 = .uop .done ∧ decode 0x8001#16 = .illegal 0x8001#16 := by decide

theorem test_decode_reserved : decode 0#16 = .illegal 0#16 ∧ decode 0xF000#16 = .illegal 0xF000#16 := by decide

theorem test_table_word_has_its_low_bits :
    decodeTableWord 16 0x7003 = some (.loop 3#5) ∧ decodeTableWord 16 0x17003 = some (.loop 3#5) := by decide

/-! ## The micro-ops -/

/-- 95 3.2. -/
theorem test_ldc_loads : after .ldc { loaded with creg := Vector.replicate 32 none }
    (fun t => (t.creg[0], t.creg[28], t.creg[31], t.upc)) =
      some (some 16#16, some 32767#16, some 0#16, 1#5) := by decide

/-- 95 3.9. -/
theorem test_ldc_at_31_overflows : statusAfter .ldc { loaded with upc := 31#5 } = some 0x24#32 := by decide

/-- 95 3.3. -/
theorem test_upd_fills_slot_2 : after (.upd 2#2) { loaded with ip := 16#32 }
    (fun t => (t.sb[15], t.sb[16], t.sb[23], t.ip)) =
      some (some (smp 15 (-1)), some (smp 16 (-16)), some (smp 23 (-23)), 24#32) := by decide

/-- 95 3.3: 40 + 8 > 47. -/
theorem test_upd_overrun :
    statusAfter (.upd 1#2) { loaded with ip := 40#32, inp := List.replicate 47 (smp 0 0) } = some 0x44#32 := by decide

/-- 95 3.4, `MULSYM 27`: every window wraps. -/
theorem test_mulsym_wraps : after (.mulsym 27#5) loaded (fun t => (t.acc0[0], t.acc0[7])) =
    some (some { re := 94720#48, im := BitVec.ofInt 48 (-32768) },
      some { re := 278528#48, im := BitVec.ofInt 48 (-32768) }) := by decide

/-- 95 3.4: the largest magnitude. -/
theorem test_mulsym_largest : after (.mulsym 0#5)
    { loaded with creg := Vector.replicate 32 (some 0x8000#16), sb := Vector.replicate 32 (some (smp (-32768) 32767)) }
    (fun t => t.acc0[3]) = some (some { re := 15032385536#48, im := BitVec.ofInt 48 (-15031926784) }) := by decide

/-- 95 3.5, `MULCTR 26`: lanes 6 and 7 wrap. -/
theorem test_mulctr_wraps : after (.mulctr 26#5) loaded (fun t => (t.acc1[5], t.acc1[6])) =
    some (some { re := 1015777#48, im := BitVec.ofInt 48 (-32767) },
      some { re := 0#48, im := BitVec.ofInt 48 (-32767) }) := by decide

/-- 95 3.5: the source's literal first offset reads an unwritten element. -/
theorem test_mulctr_undefined : after (.mulctr 28#5)
    { loaded with sb := Vector.ofFn fun k => if k.val < 24 then some (smp 0 0) else none } (fun t => t.faultInfo) =
      some (some (.undefRead 0#5 (.sb 28))) := by decide

/-- The accumulators of the `SRSZIP` vector of 95 3.6. -/
def zipState : State :=
  { loaded with
    acc0 := #v[some ⟨16384, -16384⟩, some ⟨49152, -49152⟩, some ⟨16383, -16385⟩, some ⟨32767, -32767⟩,
      some ⟨1073741824, -1073741824⟩, some ⟨1073676289, -1073709056⟩, some ⟨15032385536, -15032385536⟩, some ⟨0, 0⟩]
    acc1 := Vector.ofFn fun l => some ⟨BitVec.ofInt 48 (32767 * l.val), BitVec.ofInt 48 (-32767 * l.val)⟩ }

/-- 95 3.6. -/
theorem test_srszip_vector : after (.srszip 15#5) zipState (fun t => (t.ov0.toList, t.ov1.toList)) =
    some ([(1, 0), (0, 0), (2, -1), (1, -1), (0, -1), (2, -2), (1, -1), (3, -3)].map fun p => some (smp p.1 p.2),
      [(32767, -32768), (4, -4), (32766, -32767), (5, -5), (32767, -32768), (6, -6), (0, 0), (7, -7)].map
        fun p => some (smp p.1 p.2)) := by decide

/-- 95 3.6 and program P3: the first `⊥` in the order `ACC0[0]`, `ACC1[0]`, ... -/
theorem test_srszip_undefined : after (.srszip 15#5) { zipState with acc1 := Vector.replicate 8 none }
    (fun t => t.faultInfo) = some (some (.undefRead 0#5 (.acc1 0))) := by decide

/-- Staging vectors with distinct samples. -/
def wrState : State :=
  { loaded with
    ov0 := Vector.ofFn fun i => some (smp i.val 0)
    ov1 := Vector.ofFn fun i => some (smp (8 + i.val) 0) }

/-- 95 3.7: the last 16 elements. -/
theorem test_wr_last_group : after .wr { wrState with op := 48#32 }
    (fun t => ([47, 48, 56, 63, 64].map t.out.read, t.op)) =
      some ([none, some (smp 0 0), some (smp 8 0), some (smp 15 0), none], 64#32) := by decide

/-- 95 3.7. -/
theorem test_wr_overrun : after .wr { wrState with op := 64#32 } (fun t => (t.readReg 1, t.out, t.op)) =
    some (0x54#32, [], 64#32) := by decide

/-- 95 3.8. -/
theorem test_loop_branches_and_falls_through :
    after (.loop 3#5) { loaded with trip := 2#32, upc := 23#5 } (fun t => (t.trip, t.upc)) = some (1#32, 3#5) ∧
    after (.loop 3#5) { loaded with upc := 23#5 } (fun t => (t.trip, t.upc)) = some (0#32, 24#5) := by decide

/-- 95 3.8. -/
theorem test_loop_faults :
    after (.loop 0#5) { loaded with trip := 0#32, upc := 1#5 } (fun t => (t.readReg 1, t.trip, t.upc)) =
      some (0x64#32, 0#32, 1#5) ∧
    after (.loop 31#5) { loaded with upc := 31#5 } (fun t => (t.readReg 1, t.trip, t.upc)) =
      some (0x24#32, 1#32, 31#5) ∧
    after (.loop 31#5) { loaded with trip := 2#32, upc := 31#5 } (fun t => (t.readReg 1, t.trip, t.upc)) =
      some (1#32, 1#32, 31#5) := by decide

/-- 95 3.9. -/
theorem test_done : after .done { loaded with upc := 31#5 } (fun t => (t.readReg 1, t.upc)) = some (2#32, 31#5) := by
  decide

/-! ## The step, the host and the assembler -/

/-- 95 3.9: word 0x2004. -/
theorem test_step_illegal :
    (nextState? (step (loaded.withFetchWord 16 0x2004))).map (fun t => (t.readReg 1, t.faultInfo)) =
      some (0x14#32, some (.illegalUop 0x2004#16 0#5)) := by decide

theorem test_step_runs_the_placed_word :
    (nextState? (step (State.reset.withFetchWord 16 0x8000))).map (fun t => t.readReg 1) = some 2#32 := by decide

/-- 95 3.10. -/
theorem test_start : (nextState? (hostStart { State.reset with nout := 192#32 })).map
    (fun t => (t.readReg 1, t.trip, t.upc)) = some (1#32, 3#32, 0#5) := by decide

/-- 95 3.10. -/
theorem test_start_bad_nout :
    (nextState? (hostStart { State.reset with nout := 96#32 })).map (fun t => t.readReg 1) = some 0x74#32 ∧
    (nextState? (hostStart State.reset)).map (fun t => t.readReg 1) = some 0x74#32 := by decide

/-- 20_memory.md R51: `re` first, each component low byte first. -/
theorem test_byte_order : bytesOfWindow [smp 0x1234 0x5678] = [0x34#8, 0x12#8, 0x78#8, 0x56#8] := by decide

/-- 20_memory.md R51: byte 253 of `OUT` is byte 1 of sample 63, the high byte of `re`. -/
theorem test_read_out_byte :
    (nextState? (hostReadOutByte 253 { State.reset with
      nout := 64#32, status := { State.reset.status with done := true }, doneSeen := true
      out := [(63, smp 0x1234 0x5678)] })).map (fun t => t.reply) = some (some (.byte 0x12#8)) := by decide

/-- 20_memory.md R51, 60_exceptions.md R126. -/
theorem test_fill_bytes :
    (nextState? (hostFillInBytes [0x34#8, 0x12#8, 0x78#8, 0x56#8] State.reset)).map (fun t => t.inp) =
      some [smp 0x1234 0x5678] := by decide

/-- 95 P1: the source text of the default program, line by line. -/
def defaultSource : Text :=
  ("LDC\nUPD 0\nUPD 1\nloop: SUBSTEP 2, 3\nSUBSTEP 3, 0x0B ; sub-step 1\nSUBSTEP 0, 19\n" ++
    "SUBSTEP 1, 27\nLOOP loop\nDONE").toList

set_option maxRecDepth 100000 in
theorem test_assembler_default_program :
    (assemble defaultSource).toOption.bind (fun is => (uprogOf is).toOption) = some defaultUprog := by decide

/-- The model's choice (log 17): a blank line, a comment and a label alone are lines without a micro-op, and the label
names the next one. -/
theorem test_assembler_empty_lines :
    (assemble "UPD 0\n\n; note\nl:\nLOOP l".toList).toOption = some [.upd 0#2, .loop 1#5] := by decide

theorem test_assembler_refuses :
    (assemble "SRSZIP 14".toList).toOption = none ∧ (assemble "MULSYM 32".toList).toOption = none := by decide

/-! ## Witnesses: for each statement with hypotheses, values that meet them, at the boundaries of its clauses -/

/-- `loaded` with every datapath element `⊥`, `upc` 30 and `LIN` 48: the last place a sequential micro-op can stand. -/
def empty30 : State :=
  { loaded with upc := 30#5, creg := Vector.replicate 32 none, sb := Vector.replicate 32 none }

/-- The table, the buffer and both accumulators defined, at `upc` 30. -/
def full30 : State := { zipState with upc := 30#5, ov0 := wrState.ov0, ov1 := wrState.ov1 }

theorem witness_LegalWordsSelectOneRow : decode 0x2003#16 = .uop (.upd 3#2) ∧ decode 0xFFFF#16 = .illegal 0xFFFF#16 := by
  decide

theorem witness_SubstepExpands : (2#5).toNat = ((27#5).toNat + 7) % 32 := by decide

theorem witness_StepRunsTheDecodedMicroOp :
    ∃ (s : State) (i : Instr), s.status.busy = true ∧ s.status.fault = false ∧
      decode (s.uprog[s.upc.toNat]'s.upc.isLt) = .uop i ∧
      (s.turns = [] ∨ ∃ rest, s.turns = .engine :: rest) :=
  ⟨loaded, .ldc, rfl, rfl, by decide, .inl rfl⟩

theorem witness_StepRunsTheDecodedMicroOp_turn :
    ∃ (s : State) (i : Instr) (rest : List Turn), s.status.busy = true ∧ s.status.fault = false ∧
      decode (s.uprog[s.upc.toNat]'s.upc.isLt) = .uop i ∧ s.turns = .engine :: rest :=
  ⟨{ loaded with turns := [.engine], upc := 24#5 }, .done, [], rfl, rfl, by decide, rfl⟩

theorem witness_IllegalWordFaultsOnFetch :
    ∃ (s s' : State) (w : UopWord) (rest : List Turn), s.status.busy = true ∧ s.status.fault = false ∧
      decode (s.uprog[s.upc.toNat]'s.upc.isLt) = .illegal w ∧ s.turns = [] ∧
      s'.status.busy = true ∧ s'.status.fault = false ∧
      decode (s'.uprog[s'.upc.toNat]'s'.upc.isLt) = .illegal w ∧ s'.turns = .engine :: rest :=
  ⟨{ loaded with upc := 31#5 }, { loaded with upc := 25#5, turns := [.engine, .host .reset] }, 0#16, [.host .reset],
    rfl, rfl, by decide, rfl, rfl, rfl, by decide, rfl⟩

theorem witness_EngineStepsExactlyWhenRunning :
    State.reset.turns = [] ∧ State.reset.status.busy = false ∧ State.reset.status.fault = false ∧
    (∃ (s : State) (rest : List Turn), s.turns = .engine :: rest ∧ s.status.busy = true ∧ s.status.fault = false) ∧
    (loaded.raise (.badTrip 0#5)).turns = [] ∧ (loaded.raise (.badTrip 0#5)).status.fault = true :=
  ⟨rfl, rfl, rfl, ⟨{ loaded with turns := [.engine] }, [], rfl, rfl, rfl⟩, rfl, rfl⟩

theorem witness_LdcLoadsTheTable : empty30.upc ≠ 31#5 := by decide

theorem witness_UpdReadsEightSamples :
    (∃ s : State, s.upc ≠ 31#5 ∧ s.ip.toNat + 8 ≤ s.inp.length ∧ s.inp.length < 2 ^ 32) ∧
    ∃ s : State, s.upc ≠ 31#5 ∧ s.inp.length < s.ip.toNat + 8 :=
  ⟨⟨{ empty30 with ip := 40#32 }, by decide, by decide, by decide⟩, { empty30 with ip := 41#32 }, by decide, by decide⟩

theorem witness_MulsymComputesSymmetricSums :
    ∃ (s : State) (x : BitVec 5) (c : Nat → S16) (w : Nat → Sample), s.upc ≠ 31#5 ∧
      (∀ k (h : k < 7), s.creg[2 * k] = some (c k)) ∧
      (∀ m < 21, (s.sb[(x.toNat + m) % 32]'(Nat.mod_lt _ (by decide))) = some (w m)) :=
  ⟨full30, 27#5, fun k => BitVec.ofInt 16 (tap exampleRom (2 * k)), fun m => smp ((27 + m) % 32 : Nat) (-1), by decide,
    by decide, by decide⟩

theorem witness_MulsymComputesSymmetricSums_creg :
    empty30.upc ≠ 31#5 ∧ empty30.creg[0] = none ∧
    ∃ s : State, s.upc ≠ 31#5 ∧ s.creg[2 * 6] = none ∧ ∀ k' (h' : k' < 6), s.creg[2 * k'] ≠ none :=
  ⟨by decide, by decide, { full30 with creg := full30.creg.set 12 none }, by decide, by decide, by decide⟩

theorem witness_MulsymComputesSymmetricSums_sb :
    ∀ m ∈ [0, 20], ∃ (s : State) (x : BitVec 5), s.upc ≠ 31#5 ∧ (∀ k (h : k < 7), s.creg[2 * k] ≠ none) ∧
      (s.sb[(x.toNat + m) % 32]'(Nat.mod_lt _ (by decide))) = none ∧
      ∀ m' < m, (s.sb[(x.toNat + m') % 32]'(Nat.mod_lt _ (by decide))) ≠ none := by
  have h0 : ∃ (s : State) (x : BitVec 5), s.upc ≠ 31#5 ∧ (∀ k (h : k < 7), s.creg[2 * k] ≠ none) ∧
      (s.sb[(x.toNat + 0) % 32]'(Nat.mod_lt _ (by decide))) = none ∧
      ∀ m' < 0, (s.sb[(x.toNat + m') % 32]'(Nat.mod_lt _ (by decide))) ≠ none :=
    ⟨{ full30 with sb := Vector.replicate 32 none }, 31#5, by decide, by decide, by decide, by decide⟩
  have h20 : ∃ (s : State) (x : BitVec 5), s.upc ≠ 31#5 ∧ (∀ k (h : k < 7), s.creg[2 * k] ≠ none) ∧
      (s.sb[(x.toNat + 20) % 32]'(Nat.mod_lt _ (by decide))) = none ∧
      ∀ m' < 20, (s.sb[(x.toNat + m') % 32]'(Nat.mod_lt _ (by decide))) ≠ none :=
    ⟨{ full30 with sb := full30.sb.set 8 none }, 20#5, by decide, by decide, by decide, by decide⟩
  simp only [List.mem_cons, List.not_mem_nil, or_false]
  rintro m (rfl | rfl)
  · exact h0
  · exact h20

theorem witness_MulsymEqualsDirectForm :
    (∃ (s : State) (x : BitVec 5) (c : Nat → S16) (w : Nat → Sample), s.upc ≠ 31#5 ∧
      (∀ i (h : i < 27), s.creg[i] = some (c i)) ∧ (∀ k < 7, c (2 * k) = c (26 - 2 * k)) ∧
      (∀ m < 21, (s.sb[(x.toNat + m) % 32]'(Nat.mod_lt _ (by decide))) = some (w m))) ∧
    empty30.upc ≠ 31#5 ∧ RomSymmetric empty30.coeffRom :=
  ⟨⟨full30, 3#5, fun i => BitVec.ofInt 16 (tap exampleRom i), fun m => smp ((3 + m) % 32 : Nat) (-1), by decide,
    by decide, by decide, by decide⟩, by decide, by decide⟩

theorem witness_MulctrComputesProducts :
    ∃ (s : State) (x : BitVec 5) (c : S16) (w : Nat → Sample), s.upc ≠ 31#5 ∧ s.creg[28] = some c ∧
      ∀ l < 8, (s.sb[(x.toNat + l) % 32]'(Nat.mod_lt _ (by decide))) = some (w l) :=
  ⟨full30, 26#5, 32767#16, fun l => smp ((26 + l) % 32 : Nat) (-1), by decide, by decide, by decide⟩

theorem witness_MulctrComputesProducts_undefined :
    (empty30.upc ≠ 31#5 ∧ empty30.creg[28] = none) ∧
    (∃ (s : State) (x : BitVec 5), s.upc ≠ 31#5 ∧ s.creg[28] ≠ none ∧
      (s.sb[(x.toNat + 0) % 32]'(Nat.mod_lt _ (by decide))) = none) ∧
    ∃ (s : State) (x : BitVec 5), s.upc ≠ 31#5 ∧ s.creg[28] ≠ none ∧
      (s.sb[(x.toNat + 7) % 32]'(Nat.mod_lt _ (by decide))) = none ∧
      ∀ l' < 7, (s.sb[(x.toNat + l') % 32]'(Nat.mod_lt _ (by decide))) ≠ none :=
  ⟨by decide, ⟨{ full30 with sb := full30.sb.set 31 none }, 31#5, by decide, by decide, by decide⟩,
    { full30 with sb := full30.sb.set 0 none }, 25#5, by decide, by decide, by decide, by decide⟩

theorem witness_SrszipInterleaves :
    ∃ (s : State) (a b : Nat → Acc), s.upc ≠ 31#5 ∧
      ∀ l (h : l < 8), s.acc0[l] = some (a l) ∧ s.acc1[l] = some (b l) :=
  ⟨{ full30 with acc0 := Vector.replicate 8 (some ⟨7, -7⟩) }, fun _ => ⟨7, -7⟩,
    fun l => ⟨BitVec.ofInt 48 (32767 * l), BitVec.ofInt 48 (-32767 * l)⟩, by decide, by decide⟩

theorem witness_SrszipInterleaves_undefined :
    (empty30.upc ≠ 31#5 ∧ empty30.acc0[0] = none) ∧
    ∃ s : State, s.upc ≠ 31#5 ∧ (∀ l' (h' : l' < 7), s.acc0[l'] ≠ none ∧ s.acc1[l'] ≠ none) ∧ s.acc0[7] ≠ none ∧
      s.acc1[7] = none :=
  ⟨by decide, { full30 with acc1 := full30.acc1.set 7 none }, by decide, by decide, by decide, by decide⟩

theorem witness_SrszipOtherShiftIsIllegal : (14#5 : BitVec 5) ≠ 15#5 := by decide

theorem witness_WrWritesSixteenSamples :
    ∃ (s : State) (a b : Nat → Sample), s.upc ≠ 31#5 ∧
      (∀ l (h : l < 8), s.ov0[l] = some (a l) ∧ s.ov1[l] = some (b l)) ∧ s.op.toNat + 16 ≤ s.nout.toNat :=
  ⟨{ full30 with op := 48#32 }, fun l => smp l 0, fun l => smp (8 + l : Nat) 0, by decide, by decide, by decide⟩

theorem witness_WrWritesSixteenSamples_faults :
    (empty30.upc ≠ 31#5 ∧ empty30.ov0[0] = none) ∧
    (∃ s : State, s.upc ≠ 31#5 ∧ (∀ l' (h' : l' < 7), s.ov0[l'] ≠ none ∧ s.ov1[l'] ≠ none) ∧ s.ov0[7] ≠ none ∧
      s.ov1[7] = none) ∧
    ∃ s : State, s.upc ≠ 31#5 ∧ (∀ l (h : l < 8), s.ov0[l] ≠ none ∧ s.ov1[l] ≠ none) ∧ s.nout.toNat < s.op.toNat + 16 :=
  ⟨by decide, ⟨{ full30 with ov1 := full30.ov1.set 7 none }, by decide, by decide, by decide, by decide⟩,
    { full30 with op := 49#32 }, by decide, by decide, by decide⟩

theorem witness_LoopBranchesOrFallsThrough :
    (∃ s : State, s.upc = 31#5 ∧ 2 ≤ s.trip.toNat) ∧ ∃ s : State, s.trip.toNat = 1 ∧ s.upc ≠ 31#5 :=
  ⟨⟨{ loaded with upc := 31#5, trip := 2#32 }, by decide, by decide⟩, full30, by decide, by decide⟩

theorem witness_LoopBranchesOrFallsThrough_faults :
    (∃ s : State, s.trip = 0#32 ∧ s.upc = 31#5) ∧ ∃ s : State, s.trip = 1#32 ∧ s.upc = 31#5 :=
  ⟨⟨{ loaded with upc := 31#5, trip := 0#32 }, rfl, rfl⟩, { loaded with upc := 31#5 }, rfl, rfl⟩

theorem witness_SequentialOverflowComesFirst :
    ∃ (s : State) (i : Instr), s.upc = 31#5 ∧ i.wf = true ∧ (∀ tgt, i ≠ .loop tgt) ∧ i ≠ .done :=
  ⟨{ empty30 with upc := 31#5 }, .srszip 15#5, rfl, rfl, by decide, by decide⟩

theorem witness_FaultsArePrecise :
    ∃ (i : Instr) (s t : State), s.status.fault = false ∧ exec i s = .next t ∧ t.status.fault = true :=
  ⟨.loop 0#5, { loaded with trip := 0#32 }, _, rfl, rfl, rfl⟩

theorem witness_OnlyItsWriterWritesAnElement : ∃ (i : Instr) (s t : State), exec i s = .next t ∧ i ≠ .ldc :=
  ⟨.done, loaded, _, rfl, by decide⟩

/-- The bound itself with both signs, and on the buffer of 95 3.4 a `MULSYM` and a `MULCTR` that complete. -/
theorem witness_MacFitsTheAccumulator :
    (|(15032385536 : Int)| ≤ 7 * 2 ^ 31 ∧ |(-15032385536 : Int)| ≤ 7 * 2 ^ 31) ∧
    (sumDefined 7 (symTerm full30 3#5 Sample.im 0)).isSome ∧ (ctrTerm full30 10#5 Sample.im 0).isSome ∧
    (∃ t, exec (.mulsym 3#5) full30 = .next t ∧ t.upc = full30.upc + 1#5) ∧
    ∃ t, exec (.mulctr 10#5) full30 = .next t ∧ t.upc = full30.upc + 1#5 := by
  refine ⟨by decide, by decide, by decide,
    ⟨{ full30 with acc0 := Vector.ofFn fun l => symLane full30 3#5 l.val, upc := 31#5 }, ?_, rfl⟩,
    ⟨{ full30 with acc1 := Vector.ofFn fun l => ctrLane full30 10#5 l.val, upc := 31#5 }, ?_, rfl⟩⟩
  · have hc : full30.firstUndef (mulsymReads 3#5) = none := by decide
    show runSequential (mulsymEffect 3#5) full30 = _
    rw [runSequential, if_neg (by decide), mulsymEffect, State.checkDefined, hc]
    rfl
  · have hc : full30.firstUndef (mulctrReads 10#5) = none := by decide
    show runSequential (mulctrEffect 10#5) full30 = _
    rw [runSequential, if_neg (by decide), mulctrEffect, State.checkDefined, hc]
    rfl

theorem witness_SrsParameters :
    (16383 : Int) % 2 ^ 15 ≠ 2 ^ 14 ∧ (0 : Int) ≤ 0 ∧ (-1 : Int) < 0 ∧ (-32768 : Int) ≤ -32768 ∧
      (32767 : Int) ≤ 32767 := by decide

/-- The premises of the composite clause, and 43 R91 at both ends of each of its three ranges, worked out from R88. -/
theorem witness_PassThroughLaw :
    (∃ (s : State) (x : BitVec 5) (w : Nat → Sample), s.upc.toNat < 30 ∧ s.srsRound = .halfUp ∧
      s.srsSat = .saturate ∧ s.creg[28] = some 32767#16 ∧
      ∀ l (h : l < 8), (s.sb[(x.toNat + l) % 32]'(Nat.mod_lt _ (by decide))) = some (w l) ∧ s.acc0[l] ≠ none) ∧
    srs .halfUp .saturate (32767 * (-16383)) = -16383 ∧ srs .halfUp .saturate (32767 * 16384) = 16384 ∧
    srs .halfUp .saturate (32767 * 16385) = 16384 ∧ srs .halfUp .saturate (32767 * 32767) = 32766 ∧
    srs .halfUp .saturate (32767 * (-16384)) = -16383 ∧ srs .halfUp .saturate (32767 * (-32768)) = -32767 :=
  ⟨⟨{ full30 with upc := 29#5 }, 10#5, fun l => smp (10 + l : Nat) (-1), by decide, by decide, by decide, by decide,
    by decide⟩, by decide, by decide, by decide, by decide, by decide, by decide⟩

theorem witness_OutputsScaleWithinTolerance :
    -32768 ≤ roundShift .halfUp (-1073741824) ∧ roundShift .halfUp 1073725439 ≤ 32767 := by decide

theorem witness_PairDependsOnFourteenSamples :
    ∃ (x y : Nat → Int) (j : Nat), x 2 ≠ y 2 ∧ x 17 ≠ y 17 ∧ ∀ m, 3 + j ≤ m → m ≤ 16 + j → x m = y m :=
  ⟨fun _ => 1, fun m => if 3 ≤ m ∧ m ≤ 16 then 1 else 0, 0, by decide, by decide, fun _ h1 h2 =>
    (if_pos ⟨h1, h2⟩).symm⟩

/-- 95 E8: the example table meets the three premises, as `FilteredOutputDirectForm` and
`OutputIsTheZeroStuffedFilter` ask. -/
theorem witness_rom_premises :
    RomSymmetric exampleRom ∧ RomHalfband exampleRom ∧ RomCentre exampleRom ∧
      tap exampleRom 28 = tap exampleRom 13 := by decide

theorem witness_ConstantInputResponse :
    ∃ (inp : List Sample) (d : Sample) (j : Nat), (∀ i, 3 + j ≤ i → i ≤ 16 + j → inp[i]? = some d) ∧
      d = { re := 1#16, im := 0#16 } ∧ tap exampleRom 28 = 32767 ∧ RomSymmetric exampleRom :=
  ⟨List.replicate 48 (smp 1 0), smp 1 0, 31, fun i _ h => by rw [List.getElem?_replicate, if_pos (by omega)], by decide,
    by decide, witness_rom_premises.1⟩

/-- The window of 95 P2, cut after the impulse. -/
theorem witness_ImpulseResponse :
    ∃ (inp : List Sample) (a : Sample) (p : Nat), RomSymmetric exampleRom ∧ inp[p]? = some a ∧
      ∀ i w, i ≠ p → inp[i]? = some w → w = { re := 0#16, im := 0#16 } :=
  ⟨[smp 0 0, smp 0 0, smp 16384 (-8192)], smp 16384 (-8192), 2, witness_rom_premises.1, rfl, fun i w hi hw => by
    match i, hi with
    | 0, _ => exact (Option.some.inj hw).symm
    | 1, _ => exact (Option.some.inj hw).symm
    | n + 3, _ => cases hw⟩

theorem witness_WindowsContinue : 64 % 64 = 0 := rfl

/-! ### Invocations -/

/-- A block about to take START of a clean launch with one outer iteration (70 R135). -/
def launch : State :=
  { State.reset with
    nout := 64#32
    inp := List.replicate 48 (smp 0 0)
    turns := [.host (.writeReg 0 1#32)] }

theorem launch_inv : Inv launch where
  memory := rfl
  exclusive := by decide
  faultCoded := by decide
  pointers := by decide
  running h := absurd h (by decide)
  window := by decide
  coefficients := .inl rfl
  seen h := absurd h (by decide)

/-- The last state before `DONE` of that invocation, its window all zero. -/
def atDone : State :=
  { launch.begin with
    upc := 24#5
    trip := 0#32
    ip := 48#32
    op := 64#32
    coeffRom := exampleRom
    creg := loadedCreg exampleRom
    sb := Vector.replicate 32 (some (smp 0 0))
    out := Memory.writeFrom [] 0 (List.replicate 64 (some (smp 0 0)))
    turns := [] }

theorem inComp_zero (part : Sample → S16) (h : part (smp 0 0) = 0#16) (m : Nat) :
    inComp part (List.replicate 48 (smp 0 0)) m = 0 := by
  rw [inComp]
  split
  · rw [List.getElem_replicate, h]
    rfl
  · rfl

theorem closedOut_zero (r : SrsRound) (m : SrsSat) (rom : Vector S16 31) (q : Nat) :
    closedOut r m rom (List.replicate 48 (smp 0 0)) q = smp 0 0 := by
  have h0 : ∀ part : Sample → S16, part (smp 0 0) = 0#16 →
      exactOut rom (inComp part (List.replicate 48 (smp 0 0))) q = 0 := fun part hp => by
    simp only [exactOut, evenSum, oddProduct, inComp_zero part hp, add_zero, mul_zero, Finset.sum_const_zero, ite_self]
  rw [closedOut, h0 _ rfl, h0 _ rfl]
  cases r <;> cases m <;> rfl

/-- The state an accepted START leaves, whatever the window. -/
theorem started_tracks (window : List Sample) : Tracks ({ launch with inp := window, turns := [] }).begin :=
  ⟨rfl, fun _ =>
    { place := by simp [State.begin, launch]
      legal := (by decide : legalNout 64#32 = true)
      pointers := by simp [State.begin, launch, updCount, wrCount, iterations]
      loaded := fun h => absurd (show 1 ≤ 0 from h) (by decide)
      buffer := fun m _ h => absurd (show m < 0 from h) (Nat.not_lt_zero m)
      filtered := fun h => absurd (show 2 ≤ 0 from h) (by decide)
      passed := fun h => absurd (show 3 ≤ 0 from h) (by decide)
      staged := fun h => absurd (show 0 = 4 from h) (by decide)
      written := fun _ => rfl }⟩

theorem atDone_tracks : Tracks atDone :=
  ⟨rfl, fun _ =>
    { place := by decide
      legal := by decide
      pointers := by decide
      loaded := fun _ => rfl
      buffer := fun m h h1 _ => by
        have hm : m < 48 := h1
        have hi : atDone.inp[m]? = some (smp 0 0) := by
          show (List.replicate 48 (smp 0 0))[m]? = _
          rw [List.getElem?_replicate, if_pos hm]
        rw [hi]
        show (Vector.replicate 32 (some (smp 0 0)))[m % 32] = _
        rw [Vector.getElem_replicate]
      filtered := fun h => absurd h (by decide)
      passed := fun h => absurd h (by decide)
      staged := fun h => absurd h (by decide)
      written := fun q => by
        show Memory.read (Memory.writeFrom [] 0 (List.replicate 64 (some (smp 0 0)))) q =
          if q < 64 then some (closedOut _ _ _ (List.replicate 48 (smp 0 0)) q) else none
        rw [closedOut_zero, Memory.read_writeFrom rfl]
        simp only [List.length_replicate, Nat.zero_le, true_and, Nat.zero_add, List.getElem_replicate, Memory.read]
        split <;> rfl }⟩

theorem witness_EveryStepTracksTheClosedForm : ∃ s t : State, Tracks s ∧ step s = .next t :=
  ⟨atDone, _, atDone_tracks, rfl⟩

theorem witness_CompletionDeliversTheClosedForm :
    ∃ s t : State, Tracks s ∧ s.status.busy = true ∧ s.status.done = false ∧ step s = .next t ∧ t.status.done = true :=
  ⟨atDone, _, atDone_tracks, rfl, rfl, rfl, rfl⟩

theorem witness_InvocationCountsDownToDone :
    ∃ s s' : State, Tracks s ∧ s.status.busy = true ∧ s.status.fault = false ∧ s.turns = [] ∧
      16 + s.nout.toNat / 2 ≤ s.inp.length ∧ stepsLeft s = 1 ∧
      Tracks s' ∧ s'.status.busy = true ∧ s'.status.fault = false ∧ s'.turns = [] ∧
      16 + s'.nout.toNat / 2 ≤ s'.inp.length ∧ stepsLeft s' = 25 :=
  ⟨atDone, ({ launch with inp := List.replicate 48 (smp 0 0), turns := [] }).begin, atDone_tracks, rfl, rfl, rfl,
    by decide, by decide, started_tracks _, rfl, rfl, rfl, by decide, by decide⟩

theorem witness_ShortWindowOverruns :
    ∃ s : State, Tracks s ∧ s.status.busy = true ∧ s.status.fault = false ∧ s.turns = [] ∧
      s.inp.length < 16 + s.nout.toNat / 2 :=
  ⟨({ launch with inp := List.replicate 47 (smp 0 0), turns := [] }).begin, started_tracks _, rfl, rfl, rfl, by decide⟩

/-- A platform's map: the registers at addresses 0, 4 and 8, reset by line 0 or by a write of 1 to address 12. -/
def demoMap : PlatformMap :=
  { ctrlAddr := 0, statusAddr := 4, noutAddr := 8, inBase := 4096, outBase := 8192, romBase := 1024
    resetBy := [.signal 0, .write 12 1#32] }

theorem witness_CleanLaunchCompletes :
    ∃ (bufAlign : Nat) (p : PlatformMap) (T : Nat) (s : State), CleanLaunch bufAlign p T s ∧
      s.turns = [.host (.writeReg 0 1#32)] :=
  ⟨64, demoMap, 1, launch,
    { idle := .inl rfl
      nout := by decide
      positive := by decide
      window := by decide
      uprog := rfl
      aligned := by decide }, rfl⟩

/-! ### The host -/

theorem witness_StartBeginsAnInvocation :
    (1#32).getLsbD 0 = true ∧ launch.status.busy = false ∧ launch.status.fault = false ∧ 0 < launch.nout.toNat ∧
      launch.nout.toNat % 64 = 0 := by decide

theorem witness_StartIsHandledInOrder :
    (2#32).getLsbD 0 = false ∧ (3#32).getLsbD 0 = true ∧ loaded.status.busy = true ∧
    (loaded.raise (.badTrip 0#5)).status.busy = false ∧ (loaded.raise (.badTrip 0#5)).status.fault = true ∧
    State.reset.status.busy = false ∧ State.reset.status.fault = false ∧ State.reset.nout.toNat = 0 ∧
    (96#32).toNat % 64 ≠ 0 ∧ launch.status.busy = false ∧ launch.status.fault = false ∧ launch.nout.toNat ≠ 0 ∧
    launch.nout.toNat % 64 = 0 := by decide

theorem witness_StartForgetsHistory :
    ∃ s s' t t' : State, s ≠ s' ∧ s.status.fault = false ∧ s'.status.fault = false ∧ s.status.fcode = s'.status.fcode ∧
      s.nout = s'.nout ∧ s.inp = s'.inp ∧ s.coeffRom = s'.coeffRom ∧ s.uprog = s'.uprog ∧ s.srsRound = s'.srsRound ∧
      s.srsSat = s'.srsSat ∧ s.faultInfo = s'.faultInfo ∧ s.turns = s'.turns ∧ s.reply = s'.reply ∧
      s.freeCount = s'.freeCount ∧ s.freeStream = s'.freeStream ∧ legalNout s.nout = true ∧ hostMove (.writeReg 0 1#32) s = .next t ∧
      hostMove (.writeReg 0 1#32) s' = .next t' :=
  ⟨launch, { launch with upc := 7#5, sb := Vector.replicate 32 (some (smp 1 1)) }, _, _,
    fun h => absurd (congrArg State.upc h) (by decide), rfl, rfl, rfl, rfl, rfl, rfl, rfl, rfl, rfl, rfl, rfl, rfl, rfl,
    rfl, by decide, rfl, rfl⟩

/-- A block faulted by a bad trip count, about to take one host action. -/
def faulted (a : HostAction) : State := { loaded.raise (.badTrip 0#5) with turns := [.host a] }

/-- The premises of each clause of `RegisterFile`: the two values of CTRL's bit 0, an accepted START, a faulted block that
takes a step other than reset, a state of the invariant without a fault, and the least number past the registers. -/
theorem witness_RegisterFile :
    (2#32).getLsbD 0 = false ∧
    ((3#32).getLsbD 0 = true ∧ launch.status.busy = false ∧ launch.status.fault = false ∧ 0 < launch.nout.toNat ∧
      launch.nout.toNat % 64 = 0) ∧
    (∃ t, (faulted (.writeReg 0 1#32)).status.fault = true ∧
      (∀ rest, (faulted (.writeReg 0 1#32)).turns ≠ .host .reset :: rest) ∧ step (faulted (.writeReg 0 1#32)) = .next t) ∧
    (Inv launch ∧ launch.status.fault = false) ∧
    loaded.status.busy = true ∧ 3 ≤ 3 :=
  ⟨by decide, by decide, ⟨_, rfl, (fun _ h => by cases h), rfl⟩, ⟨launch_inv, rfl⟩, rfl, by decide⟩

/-- Completed, the host having read DONE = 1, and one element written. -/
def readable : State :=
  { launch with
    status := { busy := false, done := true, fault := false, fcode := 0#4 }
    doneSeen := true
    out := [(63, smp 4 5)] }

theorem witness_OutReadsAfterDone :
    255 / 4 = 63 ∧ readable.nout.toNat ≤ 64 ∧ 63 < readable.nout.toNat ∧ readable.status.done = true ∧
      readable.doneSeen = true ∧ readable.out.read 63 = some (smp 4 5) ∧ readable.out.read 62 = none := by decide

theorem witness_HostFillsTheWindow :
    (launch.status.busy = false ∧ [smp 1 2].length < 2 ^ 32) ∧ loaded.status.busy = true ∧
    (∃ w : List Sample, launch.status.busy = false ∧ 2 ^ 32 ≤ w.length) ∧ [0#8, 1#8, 2#8].length % 4 ≠ 0 :=
  ⟨⟨rfl, by decide⟩, rfl, ⟨List.replicate (2 ^ 32) (smp 0 0), rfl, (List.length_replicate ..).ge⟩, by decide⟩

theorem witness_PlatformEventsReachTheBlock :
    demoMap.RegistersApart ∧ .signal 0 ∈ demoMap.resetBy ∧ .write 12 1#32 ∈ demoMap.resetBy ∧
    (∀ a ∈ [0, 4, 8], .read a ∉ demoMap.resetBy) ∧ .write 0 1#32 ∉ demoMap.resetBy ∧ .signal 1 ∉ demoMap.resetBy ∧
    12 ∉ [demoMap.ctrlAddr, demoMap.statusAddr, demoMap.noutAddr] ∧ .read 12 ∉ demoMap.resetBy ∧
    .write 12 2#32 ∉ demoMap.resetBy := by decide

/-- A faulted block steps with the host's reset at the head of its turns, and with another turn there. -/
theorem witness_FaultIsSticky :
    (∃ t rest, (faulted .reset).status.fault = true ∧ step (faulted .reset) = .next t ∧
      (faulted .reset).turns = .host .reset :: rest) ∧
    ∃ s t : State, s.status.fault = true ∧ s.status.busy = false ∧ step s = .next t ∧
      ∀ rest, s.turns ≠ .host .reset :: rest :=
  ⟨⟨_, [], rfl, rfl, rfl⟩, faulted (.writeReg 0 1#32), _, rfl, rfl, rfl, fun _ h => by cases h⟩

theorem witness_FaultRecordIsKept :
    (∃ s t : State, s.status.fault = true ∧ step s = .next t ∧ ∃ rest, s.turns = .host .reset :: rest) ∧
    ∃ s t : State, s.status.fault = true ∧ step s = .next t ∧ ∀ rest, s.turns ≠ .host .reset :: rest :=
  ⟨⟨faulted .reset, _, rfl, rfl, [], rfl⟩, faulted (.readReg 1), _, rfl, rfl, fun _ h => by cases h⟩

theorem witness_OnlyStartWakesTheEngine :
    ∃ s t : State, s.status.busy = false ∧ step s = .next t ∧ t.status.busy = true :=
  ⟨launch, _, rfl, rfl, rfl⟩

theorem witness_ConstantsNeverChange : ∃ s t : State, step s = .next t :=
  ⟨launch, _, rfl⟩

theorem witness_InstancesAreIndependent : ∃ (p q : Platform) (k : Nat), p.stepAt k = some (.next q) :=
  ⟨{ instances := [State.reset, launch] }, _, 1, rfl⟩

theorem witness_EveryStepKeepsTheInvariant : ∃ s t : State, Inv s ∧ step s = .next t :=
  ⟨launch, _, launch_inv, rfl⟩

end Sys2Proof.Tests
end

