-- ==== Sys2Proof/Proofs/RegisterFile.lean ====
section
/-!
SUPPORT. The register file of 10_state.md R26 to R29: what a read of each register number gives and what a write of each
does, and what every step keeps of a fault. Settles O43.
-/
namespace Sys2Proof.Machine

/-! ## Reads -/

@[simp] theorem readReg_ctrl (s : State) : s.readReg 0 = 0#32 := rfl

@[simp] theorem readReg_status (s : State) : s.readReg 1 = statusWord s.status := rfl

@[simp] theorem readReg_nout (s : State) : s.readReg 2 = s.nout := rfl

theorem readReg_other {r : Nat} (h : 3 ≤ r) (s : State) : s.readReg r = 0#32 := by
  obtain ⟨k, rfl⟩ := Nat.exists_eq_add_of_le' h
  rfl

theorem reset_readReg (r : Nat) : State.reset.readReg r = 0#32 := by
  match r with
  | 0 | 1 | 2 => decide
  | k + 3 => rfl

theorem toNat_append_ofBool {n : Nat} (x : BitVec n) (b : Bool) :
    (x ++ BitVec.ofBool b).toNat = 2 * x.toNat + b.toNat := by
  rw [BitVec.toNat_append, BitVec.toNat_ofBool, ← Nat.shiftLeft_add_eq_or_of_lt (by cases b <;> decide),
    Nat.shiftLeft_eq]
  omega

/-- The fields of `STATUS` in their bits (R28). -/
theorem statusWord_toNat (t : Status) :
    (statusWord t).toNat = t.busy.toNat + 2 * t.done.toNat + 4 * t.fault.toNat + 16 * t.fcode.toNat := by
  have hbit3 : (t.fcode ++ 0#1).toNat = 2 * t.fcode.toNat := toNat_append_ofBool t.fcode false
  rw [statusWord, BitVec.toNat_setWidth_of_le (by decide), toNat_append_ofBool, toNat_append_ofBool,
    toNat_append_ofBool, hbit3]
  omega

/-! ## Writes -/

theorem writeReg_ctrl_clear {v : RegWord} (h : v.getLsbD 0 = false) (s : State) :
    hostMove (.writeReg 0 v) s = .next s := by
  rw [hostMove, hostWriteReg, h]
  rfl

theorem writeReg_ctrl_set {v : RegWord} (h : v.getLsbD 0 = true) (s : State) :
    hostMove (.writeReg 0 v) s = hostStart s := by
  rw [hostMove, hostWriteReg, h]
  rfl

theorem writeReg_status (s : State) (v : RegWord) : hostMove (.writeReg 1 v) s = .next s := rfl

theorem writeReg_nout_busy {s : State} (h : s.status.busy = true) (v : RegWord) :
    hostMove (.writeReg 2 v) s = .next s := by
  simp [hostMove, hostWriteReg, State.writeNout, h]

theorem writeReg_nout_idle {s : State} (h : s.status.busy = false) (v : RegWord) :
    hostMove (.writeReg 2 v) s = .next { s with nout := v } := by
  simp [hostMove, hostWriteReg, State.writeNout, h]

theorem writeReg_other {r : Nat} (h : 3 ≤ r) (s : State) (v : RegWord) : hostMove (.writeReg r v) s = .next s := by
  obtain ⟨k, rfl⟩ := Nat.exists_eq_add_of_le' h
  rfl

theorem legalNout_iff (n : RegWord) : legalNout n = true ↔ 0 < n.toNat ∧ n.toNat % 64 = 0 := by
  have hzero : n ≠ 0#32 ↔ 0 < n.toNat := by rw [ne_eq, ← BitVec.toNat_inj, BitVec.toNat_ofNat]; omega
  simp [legalNout, hzero]

/-- START of an idle, unfaulted block with a legal `NOUT` is accepted (44_sequencing.md R98). -/
theorem hostStart_accepted {s : State} (hb : s.status.busy = false) (hf : s.status.fault = false)
    (hn : legalNout s.nout = true) : hostStart s = .next s.begin := by
  simp [hostStart, hb, hf, hn]

/-! ## A fault stays -/

/-- A host move other than reset leaves FAULT set (60_exceptions.md R120). -/
theorem hostMove_keeps_fault {a : HostAction} {s t : State} (hf : s.status.fault = true) (ha : a ≠ .reset)
    (h : hostMove a s = .next t) : t.status.fault = true := by
  rcases hostMove_cases h with ⟨r, d, n, rfl, -⟩ | ⟨-, v, rfl⟩ | ⟨-, w, -, rfl⟩ | hstart | ⟨hreset, -⟩
  · exact hf
  · exact hf
  · exact hf
  · rcases hostStart_cases hstart with ⟨-, ⟨-, rfl⟩ | ⟨-, -, rfl⟩ | ⟨-, -, rfl⟩⟩
    · exact hf
    · exact hf
    · rfl
  · exact absurd hreset ha

/-- A step that is not the host's reset leaves FAULT set: the engine has no step, and no other host move clears it. -/
theorem step_keeps_fault {s t : State} (hf : s.status.fault = true) (hturn : ∀ rest, s.turns ≠ .host .reset :: rest)
    (h : step s = .next t) : t.status.fault = true := by
  rcases step_cases h with ⟨rest, he⟩ | ⟨a, rest, hs, hm⟩
  · obtain ⟨-, hunfaulted, -⟩ := engineStep_cases he
    exact absurd hf (by simpa using hunfaulted)
  · have ha : a ≠ .reset := fun hreset => hturn rest (hreset ▸ hs)
    exact hostMove_keeps_fault (s := { s with turns := rest }) hf ha hm

end Sys2Proof.Machine

namespace Sys2Proof.Safety
open Sys2Proof.Machine

/-- At most one of BUSY, DONE and FAULT is 1 (R28). -/
theorem Inv.status_sum_le_one {s : State} (h : Inv s) :
    s.status.busy.toNat + s.status.done.toNat + s.status.fault.toNat ≤ 1 := by
  obtain ⟨hbd, hbf, hdf⟩ := h.exclusive
  cases hb : s.status.busy with
  | true =>
    have hd : s.status.done = false := by simpa [hb] using hbd
    have hf : s.status.fault = false := by simpa [hb] using hbf
    simp [hd, hf]
  | false =>
    cases hd : s.status.done with
    | true =>
      have hf : s.status.fault = false := by simpa [hd] using hdf
      simp [hf]
    | false => simpa using s.status.fault.toNat_le

/-- FCODE is 0 without a fault (R28). -/
theorem Inv.fcode_eq_zero {s : State} (h : Inv s) (hf : s.status.fault = false) : s.status.fcode = 0#4 := by
  obtain ⟨hsome, hcode⟩ := h.faultCoded
  have hnone : s.faultInfo = none := by simpa [hf] using hsome.symm
  rw [hcode, hnone]
  rfl

end Sys2Proof.Safety

namespace Sys2Proof.Proofs
open Sys2Proof.Machine Sys2Proof.Safety

/-- Settles O43, register by register: each clause is the law of that register's reads, writes or status changes. -/
theorem registerFile : Obligations.RegisterFile := by
  refine ⟨reset_readReg, fun s r v => ?_⟩
  have hset : v.getLsbD 0 = true → hostMove (.writeReg 0 v) s = hostMove (.writeReg 0 1#32) s ∧
      (s.status.busy = false → s.status.fault = false → 0 < s.nout.toNat → s.nout.toNat % 64 = 0 →
        hostMove (.writeReg 0 v) s = .next s.begin) := by
    intro hv
    rw [writeReg_ctrl_set hv, writeReg_ctrl_set (by decide)]
    exact ⟨rfl, fun hb hf hpos hmod => hostStart_accepted hb hf ((legalNout_iff _).mpr ⟨hpos, hmod⟩)⟩
  refine ⟨⟨_, rfl, rfl⟩,
    -- CTRL (R27)
    readReg_ctrl s, (writeReg_ctrl_clear · s), hset,
    -- STATUS (R28)
    statusWord_toNat s.status, writeReg_status s v, ⟨rfl, rfl⟩, ⟨_, rfl, rfl, rfl⟩, fun f => ⟨rfl, rfl, rfl⟩,
    fun hf hturn t => step_keeps_fault hf hturn, fun h => ⟨h.status_sum_le_one, h.fcode_eq_zero⟩,
    -- NOUT (R29)
    readReg_nout s, (writeReg_nout_busy · v), (writeReg_nout_idle · v),
    -- the other numbers (R26)
    fun hr => ⟨readReg_other hr s, writeReg_other hr s v⟩⟩

end Sys2Proof.Proofs
end

