-- ==== Sys2Proof/Proofs/Encoding.lean ====
section
/-!
SUPPORT. The opcode map against the decoder (30_encoding.md R70 to R72): the decoder's tests on the fields of a word are
the map's (match, mask) tests, and no word selects two rows. Settles O2 and O5.
-/
namespace Sys2Proof

/-! ## The fields of a word as numbers -/

theorem toNat_op_append (op : BitVec 4) (arg : BitVec 12) : (op ++ arg).toNat = op.toNat * 2 ^ 12 + arg.toNat := by
  rw [BitVec.toNat_append, ← Nat.shiftLeft_add_eq_or_of_lt arg.isLt, Nat.shiftLeft_eq]

theorem opField_eq_iff (w : UopWord) (op : BitVec 4) : opField w = op ↔ w.toNat / 2 ^ 12 = op.toNat := by
  rw [← BitVec.toNat_inj, opField, BitVec.extractLsb'_toNat, Nat.shiftRight_eq_div_pow]
  omega

theorem argField_eq_iff (w : UopWord) (arg : BitVec 12) : argField w = arg ↔ w.toNat % 2 ^ 12 = arg.toNat := by
  rw [← BitVec.toNat_inj, argField, BitVec.extractLsb'_toNat, Nat.shiftRight_zero]

theorem reserved2Clear_iff (w : UopWord) : reserved2Clear w = true ↔ w.toNat / 2 ^ 2 % 2 ^ 10 = 0 := by
  rw [reserved2Clear, beq_iff_eq, ← BitVec.toNat_inj, BitVec.extractLsb'_toNat, Nat.shiftRight_eq_div_pow,
    BitVec.toNat_ofNat]

theorem reserved5Clear_iff (w : UopWord) : reserved5Clear w = true ↔ w.toNat / 2 ^ 5 % 2 ^ 7 = 0 := by
  rw [reserved5Clear, beq_iff_eq, ← BitVec.toNat_inj, BitVec.extractLsb'_toNat, Nat.shiftRight_eq_div_pow,
    BitVec.toNat_ofNat]

end Sys2Proof

namespace Sys2Proof.Safety

/-! ## A row's test on the fields of a word -/

/-- A mask that clears the low `n` bits compares the word rounded down to a multiple of `2 ^ n`. -/
theorem selects_shifted_mask (w m : UopWord) (n : Nat) :
    selects w (m, BitVec.allOnes 16 <<< n) = true ↔ w.toNat / 2 ^ n * 2 ^ n = m.toNat := by
  have hlt : w.toNat / 2 ^ n * 2 ^ n < 2 ^ 16 := (Nat.div_mul_le_self ..).trans_lt w.isLt
  rw [selects, beq_iff_eq, ← BitVec.shiftLeft_ushiftRight, ← BitVec.toNat_inj, BitVec.toNat_shiftLeft,
    BitVec.toNat_ushiftRight, Nat.shiftRight_eq_div_pow, Nat.shiftLeft_eq, Nat.mod_eq_of_lt hlt]

/-- A row without operand bits fixes the whole word (R70). -/
theorem selects_fixed (w : UopWord) (op : BitVec 4) (arg : BitVec 12) :
    selects w (op ++ arg, 0xFFFF#16) = true ↔ opField w = op ∧ argField w = arg := by
  have h := selects_shifted_mask w (op ++ arg) 0
  rw [toNat_op_append] at h
  rw [opField_eq_iff, argField_eq_iff]
  exact h.trans (by omega)

/-- A row of format `S` fixes `OP` and clears `ARG[11:2]` (R68, R70). -/
theorem selects_formatS (w : UopWord) (op : BitVec 4) :
    selects w (op ++ 0#12, 0xFFFC#16) = true ↔ opField w = op ∧ reserved2Clear w = true := by
  have h := selects_shifted_mask w (op ++ 0#12) 2
  rw [toNat_op_append, BitVec.toNat_ofNat] at h
  rw [opField_eq_iff, reserved2Clear_iff]
  exact h.trans (by omega)

/-- A row of format `X` or `T` fixes `OP` and clears `ARG[11:5]` (R68, R70). -/
theorem selects_formatXT (w : UopWord) (op : BitVec 4) :
    selects w (op ++ 0#12, 0xFFE0#16) = true ↔ opField w = op ∧ reserved5Clear w = true := by
  have h := selects_shifted_mask w (op ++ 0#12) 5
  rw [toNat_op_append, BitVec.toNat_ofNat] at h
  rw [opField_eq_iff, reserved5Clear_iff]
  exact h.trans (by omega)

/-! ## The decoder goes down the opcode map -/

/-- The decoder of R71 answers by the first row of the map that the word selects. -/
theorem decode_eq_selects (w : UopWord) : decode w =
    if selects w (opcodeRow .ldc) then .uop .ldc
    else if selects w (opcodeRow (.upd (arg2 w))) then .uop (.upd (arg2 w))
    else if selects w (opcodeRow (.mulsym (arg5 w))) then .uop (.mulsym (arg5 w))
    else if selects w (opcodeRow (.mulctr (arg5 w))) then .uop (.mulctr (arg5 w))
    else if selects w (opcodeRow (.srszip (arg5 w))) then .uop (.srszip (arg5 w))
    else if selects w (opcodeRow .wr) then .uop .wr
    else if selects w (opcodeRow (.loop (arg5 w))) then .uop (.loop (arg5 w))
    else if selects w (opcodeRow .done) then .uop .done
    else .illegal w := by
  have hldc := selects_fixed w 0x1#4 0#12
  have hupd := selects_formatS w 0x2#4
  have hmulsym := selects_formatXT w 0x3#4
  have hmulctr := selects_formatXT w 0x4#4
  have hsrszip := selects_fixed w 0x5#4 0x00F#12
  have hwr := selects_fixed w 0x6#4 0#12
  have hloop := selects_formatXT w 0x7#4
  have hdone := selects_fixed w 0x8#4 0#12
  simp only [decode, ← hldc, ← hupd, ← hmulsym, ← hmulctr, ← hsrszip, ← hwr, ← hloop, ← hdone]
  rfl

theorem selects_of_decode_uop {w : UopWord} {i : Instr} (h : decode w = .uop i) : selects w (opcodeRow i) = true := by
  rw [decode_eq_selects] at h
  split_ifs at h <;> (cases h; assumption)

theorem not_selects_of_decode_illegal {w v : UopWord} (h : decode w = .illegal v) :
    v = w ∧ ∀ row ∈ opcodeRows, ¬ selects w row = true := by
  rw [decode_eq_selects] at h
  split_ifs at h with hldc hupd hmulsym hmulctr hsrszip hwr hloop hdone
  cases h
  refine ⟨rfl, ?_⟩
  simp only [opcodeRows, List.forall_mem_cons]
  exact ⟨hldc, hupd, hmulsym, hmulctr, hsrszip, hwr, hloop, hdone, List.forall_mem_nil _⟩

/-! ## No word selects two rows -/

/-- Every row fixes `OP`. -/
theorem opField_of_selects {w : UopWord} {row : UopWord × UopWord} (hrow : row ∈ opcodeRows)
    (h : selects w row = true) : opField w = opField row.1 := by
  have hmask : ∀ r ∈ opcodeRows, opField r.2 = BitVec.allOnes 4 := by simp [opcodeRows, opField]
  calc opField w = opField w &&& opField row.2 := by rw [hmask row hrow, BitVec.and_allOnes]
    _ = opField (w &&& row.2) := BitVec.extractLsb'_and.symm
    _ = opField row.1 := by rw [beq_iff_eq.mp h]

/-- The rows differ in `OP`, so a word selects at most one. -/
theorem selects_unique {w : UopWord} {row row' : UopWord × UopWord} (hrow : row ∈ opcodeRows)
    (hrow' : row' ∈ opcodeRows) (h : selects w row = true) (h' : selects w row' = true) : row = row' := by
  have hop : opField row.1 = opField row'.1 := (opField_of_selects hrow h).symm.trans (opField_of_selects hrow' h')
  have hdistinct : (opcodeRows.map fun r => opField r.1).Nodup := by decide
  exact List.inj_on_of_nodup_map hdistinct hrow hrow' hop

theorem opcodeRow_mem (i : Instr) : opcodeRow i ∈ opcodeRows := by
  cases i <;> simp [opcodeRow, opcodeRows]

theorem filter_selects_eq_singleton {w : UopWord} {row : UopWord × UopWord} (hrow : row ∈ opcodeRows)
    (h : selects w row = true) : opcodeRows.filter (selects w) = [row] := by
  have hsame : ∀ r ∈ opcodeRows, selects w r = (r == row) := fun r hr =>
    Bool.eq_iff_iff.mpr ⟨fun hs => beq_iff_eq.mpr (selects_unique hr hrow hs h), fun he => beq_iff_eq.mp he ▸ h⟩
  have hnodup : opcodeRows.Nodup := by decide
  rw [List.filter_congr hsame, List.filter_beq, List.count_eq_one_of_mem hnodup hrow, List.replicate_one]

end Sys2Proof.Safety

namespace Sys2Proof.Proofs
open Sys2Proof.Safety

/-- Settles O2: the decoder answers by a row the word selects, and the rows differ in `OP`. -/
theorem legalWordsSelectOneRow : Obligations.LegalWordsSelectOneRow := by
  refine ⟨fun w i h => filter_selects_eq_singleton (opcodeRow_mem i) (selects_of_decode_uop h), fun w v h => ?_⟩
  obtain ⟨hv, hnone⟩ := not_selects_of_decode_illegal h
  exact ⟨hv, List.filter_eq_nil_iff.mpr hnone⟩

/-- Settles O5: addition on `BitVec 5` is addition modulo 32. -/
theorem substepExpands : Obligations.SubstepExpands := by
  intro s x y hy
  have hsum : x + 7#5 = y := BitVec.eq_of_toNat_eq (by rw [hy, BitVec.toNat_add]; rfl)
  rw [substep, hsum]

end Sys2Proof.Proofs
end

