-- ==== Sys2Proof/Proofs/CoefficientAndBuffer.lean ====
section
/-!
SUPPORT. `LDC` and `UPD` (41_coefficient_and_buffer.md R76, R77): what each leaves in `CREG` and in the sliding buffer,
and what `exec` answers for each where `upc` is not 31. Settles O9 and O10.
-/
namespace Sys2Proof

/-- An operand below the lowest set bit of the base word adds to it: the encoder's OR is a sum (R70). -/
theorem toNat_or_operand {n : Nat} (base : UopWord) (operand : BitVec n) (hn : n ≤ 16) (hbase : 2 ^ n ∣ base.toNat) :
    (base ||| operand.setWidth 16).toNat = base.toNat + operand.toNat := by
  obtain ⟨k, hk⟩ := hbase
  rw [BitVec.toNat_or, BitVec.toNat_setWidth_of_le hn, hk, Nat.two_pow_add_eq_or_of_lt operand.isLt]

end Sys2Proof

namespace Sys2Proof.Machine

/-! ## What `LDC` leaves in `CREG` -/

theorem loadedCreg_coefficient (rom : Vector S16 31) {i : Nat} (h : i < 31) : (loadedCreg rom)[i] = some rom[i] := by
  rw [loadedCreg, Vector.getElem_ofFn, dif_pos h]

theorem loadedCreg_pad (rom : Vector S16 31) : (loadedCreg rom)[31] = some 0#16 := by
  rw [loadedCreg, Vector.getElem_ofFn, dif_neg (Nat.lt_irrefl 31)]

/-! ## What `UPD` leaves in the buffer -/

/-- Lane `i` of the slot holds the `i`-th sample read, so the oldest is lowest. -/
theorem fillSlot_lane (slot : BitVec 2) (inp : List Sample) (p : Nat) (sb : Vector (Option Sample) 32) {i : Nat}
    (h : i < 8) : (fillSlot slot inp p sb)[8 * slot.toNat + i]'(by omega) = inp[p + i]? := by
  have hslot : (8 * slot.toNat + i) / 8 = slot.toNat := by omega
  have hlane : (8 * slot.toNat + i) % 8 = i := by omega
  rw [fillSlot, Vector.getElem_ofFn, if_pos hslot, hlane]

theorem fillSlot_other_slot (slot : BitVec 2) (inp : List Sample) (p : Nat) (sb : Vector (Option Sample) 32) {j : Nat}
    (h : j < 32) (hj : j / 8 ≠ slot.toNat) : (fillSlot slot inp p sb)[j] = sb[j] := by
  rw [fillSlot, Vector.getElem_ofFn, if_neg hj]
  rfl

/-! ## Their effects, and what `exec` answers below `upc` 31 -/

theorem ldcEffect_ok (s : State) : ldcEffect s = .ok { s with creg := loadedCreg s.coeffRom } := rfl

theorem updEffect_enough (slot : BitVec 2) {s : State} (h : s.ip.toNat + 8 ≤ s.inp.length) :
    updEffect slot s = .ok { s with sb := fillSlot slot s.inp s.ip.toNat s.sb, ip := s.ip + 8#32 } := by
  rw [updEffect, if_neg (Nat.not_lt.mpr h)]

theorem updEffect_overrun (slot : BitVec 2) {s : State} (h : s.inp.length < s.ip.toNat + 8) :
    updEffect slot s = .error (.inOverrun s.upc s.ip s.inp.length) := by
  rw [updEffect, if_pos h]

theorem exec_ldc {s : State} (hu : s.upc ≠ 31#5) :
    exec .ldc s = .next { s with creg := loadedCreg s.coeffRom, upc := s.upc + 1#5 } := by
  rw [exec, execLdc, runSequential_ok hu (ldcEffect_ok s)]
  rfl

theorem exec_upd_enough (slot : BitVec 2) {s : State} (hu : s.upc ≠ 31#5) (h : s.ip.toNat + 8 ≤ s.inp.length) :
    exec (.upd slot) s =
      .next { s with sb := fillSlot slot s.inp s.ip.toNat s.sb, ip := s.ip + 8#32, upc := s.upc + 1#5 } := by
  rw [exec, execUpd, runSequential_ok hu (updEffect_enough slot h)]
  rfl

theorem exec_upd_overrun (slot : BitVec 2) {s : State} (hu : s.upc ≠ 31#5) (h : s.inp.length < s.ip.toNat + 8) :
    exec (.upd slot) s = .next (s.raise (.inOverrun s.upc s.ip s.inp.length)) := by
  rw [exec, execUpd, runSequential_error hu (updEffect_overrun slot h)]

end Sys2Proof.Machine

namespace Sys2Proof.Safety
open Sys2Proof.Machine

/-- Raising a fault leads to the fault state of its code (60_exceptions.md R117, R118). -/
theorem faultState_raise (s : State) (f : FaultInfo) : FaultState s (faultCode f) f (s.raise f) :=
  ⟨rfl, rfl, rfl⟩

end Sys2Proof.Safety

namespace Sys2Proof.Proofs
open Sys2Proof.Machine Sys2Proof.Safety

/-- Settles O10: with 8 samples left every lane of the slot reads one of them and no other element moves; with fewer the
check stands before every write. -/
theorem updReadsEightSamples : Obligations.UpdReadsEightSamples := by
  intro slot
  have hword : (encode (.upd slot)).toNat = 0x2000 + slot.toNat :=
    toNat_or_operand 0x2000#16 slot (by decide) (by decide)
  refine ⟨hword, fun s hu => ⟨fun hlin => ?_, fun hlin => ?_⟩⟩
  · have hread : ∀ i < 8, (s.inp[s.ip.toNat + i]?).isSome = true := fun i hi => by
      rw [isSome_getElem?]
      omega
    have hip : s.inp.length < 2 ^ 32 → (s.ip + 8#32).toNat = s.ip.toNat + 8 := fun hwindow =>
      BitVec.toNat_add_of_lt (hlin.trans_lt hwindow)
    exact ⟨_, exec_upd_enough slot hu hlin, fun i hi => ⟨fillSlot_lane slot _ _ _ hi, hread i hi⟩,
      fun j hj hother => fillSlot_other_slot slot _ _ _ hj hother, rfl, hip, rfl, rfl⟩
  · exact ⟨_, exec_upd_overrun slot hu hlin, faultState_raise s _⟩

/-- Settles O9: below `upc` 31 the one answer of `LDC` has the table and the pad in `CREG` and `upc` advanced. -/
theorem ldcLoadsTheTable : Obligations.LdcLoadsTheTable := by
  refine ⟨rfl, fun s hu => ⟨_, exec_ldc hu, fun i hi => ?_, ?_, rfl, rfl⟩⟩
  · exact loadedCreg_coefficient s.coeffRom hi
  · exact loadedCreg_pad s.coeffRom

end Sys2Proof.Proofs
end

