-- ==== Sys2Proof/Proofs/Mac.lean ====
section
/-!
SUPPORT. `MULSYM` and `MULCTR` (42_mac.md R80, R81, R84): the first undefined element among those each reads, the exact
value of every lane within `int48`, and what `exec` answers for each where `upc` is not 31. Settles O11 and O13.
-/
namespace Sys2Proof.Machine

/-! ## Reading the coefficient register and the sliding buffer -/

theorem cregIndex_of_lt {k : Nat} (h : k < 32) : cregIndex k = ⟨k, h⟩ := Fin.ext (Nat.mod_eq_of_lt h)

theorem creg_cregIndex (s : State) {k : Nat} (h : k < 32) : s.creg[cregIndex k] = s.creg[k] :=
  congrArg (fun i : Fin 32 => s.creg[i]) (cregIndex_of_lt h)

theorem sb_ring (s : State) (x : BitVec 5) (m : Nat) :
    s.sb[ring x m] = s.sb[(x.toNat + m) % 32]'(Nat.mod_lt _ (by decide)) := rfl

theorem isDefined_creg_iff (s : State) {k : Nat} (h : k < 32) :
    s.isDefined (.creg (cregIndex k)) = true ↔ s.creg[k] ≠ none := by
  rw [State.isDefined, creg_cregIndex s h, Option.isSome_iff_ne_none]

theorem isDefined_sb_iff (s : State) (x : BitVec 5) (m : Nat) :
    s.isDefined (.sb (ring x m)) = true ↔ (s.sb[(x.toNat + m) % 32]'(Nat.mod_lt _ (by decide))) ≠ none := by
  rw [State.isDefined, sb_ring, Option.isSome_iff_ne_none]

/-! ## The first undefined element (60_exceptions.md R116, R119) -/

theorem checkDefined_undefined {s : State} {es : List Elem} {e : Elem} {rest : Except FaultInfo State}
    (h : s.firstUndef es = some e) : s.checkDefined es rest = .error (.undefRead s.upc e) := by
  rw [State.checkDefined, h]

theorem firstUndef_append_undefined {s : State} {es : List Elem} {e : Elem} (h : s.firstUndef es = some e)
    (es' : List Elem) : s.firstUndef (es ++ es') = some e := by
  rw [State.firstUndef] at h
  rw [State.firstUndef, List.find?_append, h, Option.some_or]

theorem firstUndef_append_defined {s : State} {es : List Elem} (h : ∀ e ∈ es, s.isDefined e = true)
    (es' : List Elem) : s.firstUndef (es ++ es') = s.firstUndef es' := by
  have hnone := firstUndef_none.mpr h
  rw [State.firstUndef] at hnone
  rw [State.firstUndef, List.find?_append, hnone, Option.none_or]
  rfl

/-- Where a list names offset `m` before any greater one, the least undefined offset is the first one found. -/
theorem firstUndef_map_least {s : State} {offsets : List Nat} {elem : Nat → Elem} {m : Nat}
    (hfirst : offsets.find? (m ≤ ·) = some m) (hm : ¬ s.isDefined (elem m) = true)
    (hless : ∀ m' < m, s.isDefined (elem m') = true) : s.firstUndef (offsets.map elem) = some (elem m) := by
  obtain ⟨-, before, after, rfl, hbefore⟩ := List.find?_eq_some_iff_append.mp hfirst
  have hdefined : ∀ e ∈ before.map elem, s.isDefined e = true := by
    intro e he
    obtain ⟨m', hm', rfl⟩ := List.mem_map.mp he
    exact hless m' (by simpa using hbefore m' hm')
  rw [List.map_append, firstUndef_append_defined hdefined, List.map_cons, State.firstUndef,
    List.find?_cons_of_pos (by simpa using hm)]

theorem find?_range_least {n m : Nat} (h : m < n) : (List.range n).find? (m ≤ ·) = some m :=
  List.find?_range_eq_some.mpr ⟨by simp, List.mem_range.mpr h, by simp⟩

theorem firstUndef_samples {s : State} {x : BitVec 5} {offsets : List Nat} {m : Nat}
    (hfirst : offsets.find? (m ≤ ·) = some m)
    (hnone : (s.sb[(x.toNat + m) % 32]'(Nat.mod_lt _ (by decide))) = none)
    (hless : ∀ m' < m, (s.sb[(x.toNat + m') % 32]'(Nat.mod_lt _ (by decide))) ≠ none) :
    s.firstUndef (offsets.map fun m => .sb (ring x m)) = some (.sb (ring x m)) :=
  firstUndef_map_least (elem := fun m => .sb (ring x m)) hfirst
    (fun hdefined => (isDefined_sb_iff s x m).mp hdefined hnone)
    fun m' hm' => (isDefined_sb_iff s x m').mpr (hless m' hm')

/-! ## The elements `MULSYM` and `MULCTR` read -/

/-- The buffer offsets from `XOFF` that `MULSYM` checks: the window of 14 of each lane, lane by lane (R81). -/
def mulsymOffsets : List Nat := (List.range 8).flatMap fun l => (List.range 14).map (l + ·)

theorem mulsymReads_eq (x : BitVec 5) : mulsymReads x =
    (List.range 7).map (fun k => .creg (cregIndex (2 * k))) ++ mulsymOffsets.map (fun m => .sb (ring x m)) := by
  simp only [mulsymReads, mulsymOffsets, List.map_flatMap, List.map_map, Function.comp_def]

theorem lt_of_mem_mulsymOffsets {m : Nat} (h : m ∈ mulsymOffsets) : m < 21 := by
  simp only [mulsymOffsets, List.mem_flatMap, List.mem_map, List.mem_range] at h
  obtain ⟨l, hl, t, ht, rfl⟩ := h
  omega

/-- Each lane's window ends one past that of the lane before, so an offset appears before every greater one. -/
theorem mulsymOffsets_rise : ∀ m < 21, mulsymOffsets.find? (m ≤ ·) = some m := by decide

theorem coefficients_defined {s : State} (h : ∀ k (hk : k < 7), s.creg[2 * k] ≠ none) :
    ∀ e ∈ (List.range 7).map fun k => Elem.creg (cregIndex (2 * k)), s.isDefined e = true := by
  intro e he
  obtain ⟨k, hk, rfl⟩ := List.mem_map.mp he
  have hk7 := List.mem_range.mp hk
  exact (isDefined_creg_iff s (by omega)).mpr (h k hk7)

theorem mulsymReads_defined {s : State} {x : BitVec 5} (hcreg : ∀ k (hk : k < 7), s.creg[2 * k] ≠ none)
    (hsb : ∀ m < 21, (s.sb[(x.toNat + m) % 32]'(Nat.mod_lt _ (by decide))) ≠ none) :
    ∀ e ∈ mulsymReads x, s.isDefined e = true := by
  intro e he
  rw [mulsymReads_eq, List.mem_append] at he
  rcases he with he | he
  · exact coefficients_defined hcreg e he
  · obtain ⟨m, hm, rfl⟩ := List.mem_map.mp he
    exact (isDefined_sb_iff s x m).mpr (hsb m (lt_of_mem_mulsymOffsets hm))

theorem firstUndef_mulsymReads_coefficient {s : State} (x : BitVec 5) {k : Nat} (hk : k < 7)
    (hnone : s.creg[2 * k] = none) (hless : ∀ k' (h : k' < k), s.creg[2 * k'] ≠ none) :
    s.firstUndef (mulsymReads x) = some (.creg ⟨2 * k, by omega⟩) := by
  rw [mulsymReads_eq, ← cregIndex_of_lt]
  refine firstUndef_append_undefined
    (firstUndef_map_least (elem := fun k => .creg (cregIndex (2 * k))) (find?_range_least hk) ?_ fun k' hk' => ?_) _
  · exact fun hdefined => (isDefined_creg_iff s (by omega)).mp hdefined hnone
  · exact (isDefined_creg_iff s (by omega)).mpr (hless k' hk')

theorem firstUndef_mulsymReads_sample {s : State} {x : BitVec 5} {m : Nat} (hm : m < 21)
    (hcreg : ∀ k (hk : k < 7), s.creg[2 * k] ≠ none)
    (hnone : (s.sb[(x.toNat + m) % 32]'(Nat.mod_lt _ (by decide))) = none)
    (hless : ∀ m' < m, (s.sb[(x.toNat + m') % 32]'(Nat.mod_lt _ (by decide))) ≠ none) :
    s.firstUndef (mulsymReads x) = some (.sb (ring x m)) := by
  rw [mulsymReads_eq, firstUndef_append_defined (coefficients_defined hcreg)]
  exact firstUndef_samples (mulsymOffsets_rise m hm) hnone hless

theorem mulctrReads_eq (x : BitVec 5) :
    mulctrReads x = [.creg (cregIndex 28)] ++ (List.range 8).map fun l => .sb (ring x l) := rfl

theorem centre_defined {s : State} (h : s.creg[28] ≠ none) :
    ∀ e ∈ [Elem.creg (cregIndex 28)], s.isDefined e = true := by
  rw [List.forall_mem_singleton]
  exact (isDefined_creg_iff s (by decide)).mpr h

theorem mulctrReads_defined {s : State} {x : BitVec 5} (hcreg : s.creg[28] ≠ none)
    (hsb : ∀ l < 8, (s.sb[(x.toNat + l) % 32]'(Nat.mod_lt _ (by decide))) ≠ none) :
    ∀ e ∈ mulctrReads x, s.isDefined e = true := by
  intro e he
  rw [mulctrReads_eq, List.mem_append] at he
  rcases he with he | he
  · exact centre_defined hcreg e he
  · obtain ⟨l, hl, rfl⟩ := List.mem_map.mp he
    exact (isDefined_sb_iff s x l).mpr (hsb l (List.mem_range.mp hl))

theorem firstUndef_mulctrReads_centre {s : State} (x : BitVec 5) (hnone : s.creg[28] = none) :
    s.firstUndef (mulctrReads x) = some (.creg 28) := by
  have hundefined : ¬ s.isDefined (.creg (cregIndex 28)) = true :=
    fun hdefined => (isDefined_creg_iff s (by decide)).mp hdefined hnone
  exact List.find?_cons_of_pos (by simpa using hundefined)

theorem firstUndef_mulctrReads_sample {s : State} {x : BitVec 5} {l : Nat} (hl : l < 8) (hcreg : s.creg[28] ≠ none)
    (hnone : (s.sb[(x.toNat + l) % 32]'(Nat.mod_lt _ (by decide))) = none)
    (hless : ∀ l' < l, (s.sb[(x.toNat + l') % 32]'(Nat.mod_lt _ (by decide))) ≠ none) :
    s.firstUndef (mulctrReads x) = some (.sb (ring x l)) := by
  rw [mulctrReads_eq, firstUndef_append_defined (centre_defined hcreg)]
  exact firstUndef_samples (find?_range_least hl) hnone hless

/-! ## The exact values fit a lane (R80) -/

theorem abs_int16_le (c : S16) : |c.toInt| ≤ 2 ^ 15 :=
  abs_le.mpr ⟨c.le_toInt, c.toInt_lt.le⟩

theorem abs_product_le (c v : S16) : |c.toInt * v.toInt| ≤ 2 ^ 30 := by
  rw [abs_mul]
  calc |c.toInt| * |v.toInt| ≤ 2 ^ 15 * 2 ^ 15 :=
        mul_le_mul (abs_int16_le c) (abs_int16_le v) (abs_nonneg _) (by decide)
    _ = 2 ^ 30 := by decide

theorem abs_symmetric_product_le (c v w : S16) : |c.toInt * (v.toInt + w.toInt)| ≤ 2 ^ 31 := by
  rw [mul_add]
  calc |c.toInt * v.toInt + c.toInt * w.toInt| ≤ |c.toInt * v.toInt| + |c.toInt * w.toInt| := abs_add_le _ _
    _ ≤ 2 ^ 30 + 2 ^ 30 := add_le_add (abs_product_le c v) (abs_product_le c w)
    _ = 2 ^ 31 := by decide

theorem abs_symmetric_sum_le (c v w : Nat → S16) :
    |∑ k ∈ Finset.range 7, (c k).toInt * ((v k).toInt + (w k).toInt)| ≤ 7 * 2 ^ 31 := by
  calc |∑ k ∈ Finset.range 7, (c k).toInt * ((v k).toInt + (w k).toInt)|
      ≤ ∑ k ∈ Finset.range 7, |(c k).toInt * ((v k).toInt + (w k).toInt)| := Finset.abs_sum_le_sum_abs _ _
    _ ≤ ∑ _k ∈ Finset.range 7, 2 ^ 31 := Finset.sum_le_sum fun k _ => abs_symmetric_product_le (c k) (v k) (w k)
    _ = 7 * 2 ^ 31 := by rw [Finset.sum_const, Finset.card_range, nsmul_eq_mul, Nat.cast_ofNat]

/-- A lane holds two values of that size exactly. -/
theorem accOfInts_exact {a b : Int} (ha : |a| ≤ 7 * 2 ^ 31) (hb : |b| ≤ 7 * 2 ^ 31) :
    ∃ v, accOfInts (some a) (some b) = some v ∧ v.re.toInt = a ∧ v.im.toInt = b := by
  rw [abs_le] at ha hb
  exact ⟨_, rfl, ofInt48_toInt (by omega), ofInt48_toInt (by omega)⟩

/-! ## The lanes -/

theorem symTerm_some {s : State} {x : BitVec 5} {l k : Nat} {c : S16} {new old : Sample} (part : Sample → S16)
    (hc : s.creg[cregIndex (2 * k)] = some c) (hnew : s.sb[ring x (l + 13 - k)] = some new)
    (hold : s.sb[ring x (l + k)] = some old) :
    symTerm s x part l k = some (c.toInt * ((part new).toInt + (part old).toInt)) := by
  rw [symTerm, hc, hnew, hold]

/-- Lane `l` of `MULSYM` holds the exact sum over the symmetric pairs of its window (R81). -/
theorem symLane_exact {s : State} {x : BitVec 5} {c : Nat → S16} {w : Nat → Sample}
    (hcreg : ∀ k (hk : k < 7), s.creg[2 * k] = some (c k))
    (hsb : ∀ m < 21, (s.sb[(x.toNat + m) % 32]'(Nat.mod_lt _ (by decide))) = some (w m)) {l : Nat} (hl : l < 8) :
    ∃ a, symLane s x l = some a ∧
      a.re.toInt = ∑ k ∈ Finset.range 7, (c k).toInt * ((w (l + (13 - k))).re.toInt + (w (l + k)).re.toInt) ∧
      a.im.toInt = ∑ k ∈ Finset.range 7, (c k).toInt * ((w (l + (13 - k))).im.toInt + (w (l + k)).im.toInt) := by
  have hterm : ∀ (part : Sample → S16), ∀ k < 7, symTerm s x part l k =
      some ((c k).toInt * ((part (w (l + (13 - k)))).toInt + (part (w (l + k))).toInt)) := by
    intro part k hk
    have hc : s.creg[cregIndex (2 * k)] = some (c k) := (creg_cregIndex s (by omega)).trans (hcreg k hk)
    have hnew : s.sb[ring x (l + 13 - k)] = some (w (l + (13 - k))) := by
      rw [← Nat.add_sub_assoc (by omega)]
      exact hsb _ (by omega)
    have hold : s.sb[ring x (l + k)] = some (w (l + k)) := hsb _ (by omega)
    exact symTerm_some part hc hnew hold
  rw [symLane, sumDefined_some (hterm Sample.re), sumDefined_some (hterm Sample.im)]
  exact accOfInts_exact (abs_symmetric_sum_le c (fun k => (w (l + (13 - k))).re) fun k => (w (l + k)).re)
    (abs_symmetric_sum_le c (fun k => (w (l + (13 - k))).im) fun k => (w (l + k)).im)

theorem ctrTerm_some {s : State} {x : BitVec 5} {l : Nat} {c : S16} {v : Sample} (part : Sample → S16)
    (hc : s.creg[28] = some c) (hv : s.sb[ring x l] = some v) :
    ctrTerm s x part l = some (c.toInt * (part v).toInt) := by
  rw [ctrTerm, creg_cregIndex s (by decide), hc, hv]

/-- Lane `l` of `MULCTR` holds the exact product (R84). -/
theorem ctrLane_exact {s : State} {x : BitVec 5} {l : Nat} {c : S16} {v : Sample}
    (hc : s.creg[28] = some c) (hv : s.sb[ring x l] = some v) :
    ∃ a, ctrLane s x l = some a ∧ a.re.toInt = c.toInt * v.re.toInt ∧ a.im.toInt = c.toInt * v.im.toInt := by
  have hfits : (2 : Int) ^ 30 ≤ 7 * 2 ^ 31 := by decide
  rw [ctrLane, ctrTerm_some Sample.re hc hv, ctrTerm_some Sample.im hc hv]
  exact accOfInts_exact ((abs_product_le c v.re).trans hfits) ((abs_product_le c v.im).trans hfits)

/-! ## What `exec` answers below `upc` 31 -/

theorem exec_mulsym_defined {x : BitVec 5} {s : State} (hu : s.upc ≠ 31#5)
    (h : ∀ e ∈ mulsymReads x, s.isDefined e = true) :
    exec (.mulsym x) s = .next { s with acc0 := Vector.ofFn fun l => symLane s x l.val, upc := s.upc + 1#5 } := by
  rw [exec, execMulsym, runSequential_ok hu (checkDefined_defined h)]
  rfl

theorem exec_mulsym_undefined {x : BitVec 5} {s : State} {e : Elem} (hu : s.upc ≠ 31#5)
    (h : s.firstUndef (mulsymReads x) = some e) :
    exec (.mulsym x) s = .next (s.raise (.undefRead s.upc e)) :=
  runSequential_error hu (checkDefined_undefined h)

theorem exec_mulctr_defined {x : BitVec 5} {s : State} (hu : s.upc ≠ 31#5)
    (h : ∀ e ∈ mulctrReads x, s.isDefined e = true) :
    exec (.mulctr x) s = .next { s with acc1 := Vector.ofFn fun l => ctrLane s x l.val, upc := s.upc + 1#5 } := by
  rw [exec, execMulctr, runSequential_ok hu (checkDefined_defined h)]
  rfl

theorem exec_mulctr_undefined {x : BitVec 5} {s : State} {e : Elem} (hu : s.upc ≠ 31#5)
    (h : s.firstUndef (mulctrReads x) = some e) :
    exec (.mulctr x) s = .next (s.raise (.undefRead s.upc e)) :=
  runSequential_error hu (checkDefined_undefined h)

end Sys2Proof.Machine

namespace Sys2Proof.Proofs
open Sys2Proof.Machine Sys2Proof.Safety

/-- Settles O11: the check finds the first undefined element since the lanes' windows advance one offset at a
time; where it finds none, every lane's sum fits `int48` and is held exactly. -/
theorem mulsymComputesSymmetricSums : Obligations.MulsymComputesSymmetricSums := by
  intro x
  have hword : (encode (.mulsym x)).toNat = 0x3000 + x.toNat :=
    toNat_or_operand 0x3000#16 x (by decide) (by decide)
  refine ⟨hword, fun s hu => ⟨fun c w hcreg hsb => ?_, fun k hk hnone hless => ?_, fun m hm hcreg hnone hless => ?_⟩⟩
  · have hdefined : ∀ e ∈ mulsymReads x, s.isDefined e = true :=
      mulsymReads_defined (fun k hk => by simp [hcreg k hk]) (fun m hm => by simp [hsb m hm])
    refine ⟨_, exec_mulsym_defined hu hdefined, fun l hl => ?_, rfl, rfl⟩
    rw [Vector.getElem_ofFn]
    exact symLane_exact hcreg hsb hl
  · have hfirst := firstUndef_mulsymReads_coefficient x hk hnone hless
    exact ⟨_, exec_mulsym_undefined hu hfirst, faultState_raise s _⟩
  · have hfirst := firstUndef_mulsymReads_sample hm hcreg hnone hless
    exact ⟨_, exec_mulsym_undefined hu hfirst, faultState_raise s _⟩

/-- Settles O13: `CREG[28]` heads the check, the samples follow in lane order, and a product of two `int16` values fits
`int48`. -/
theorem mulctrComputesProducts : Obligations.MulctrComputesProducts := by
  intro x
  have hword : (encode (.mulctr x)).toNat = 0x4000 + x.toNat :=
    toNat_or_operand 0x4000#16 x (by decide) (by decide)
  refine ⟨hword, fun s hu => ⟨fun c w hc hsb => ?_, fun hnone => ?_, fun l hl hcreg hnone hless => ?_⟩⟩
  · have hdefined : ∀ e ∈ mulctrReads x, s.isDefined e = true :=
      mulctrReads_defined (by simp [hc]) (fun l hl => by simp [hsb l hl])
    refine ⟨_, exec_mulctr_defined hu hdefined, fun l hl => ?_, rfl, rfl⟩
    rw [Vector.getElem_ofFn]
    exact ctrLane_exact hc (hsb l hl)
  · exact ⟨_, exec_mulctr_undefined hu (firstUndef_mulctrReads_centre x hnone), faultState_raise s _⟩
  · have hfirst := firstUndef_mulctrReads_sample hl hcreg hnone hless
    exact ⟨_, exec_mulctr_undefined hu hfirst, faultState_raise s _⟩

end Sys2Proof.Proofs
end

