-- ==== Sys2Proof/Proofs/Output.lean ====
section
/-!
SUPPORT. Shift-round-saturate, `SRSZIP` and `WR` (43_output.md R88, R89, R92 to R94): rounding and narrowing case by
case, the first undefined lane of two vectors read in turn, what `SRSZIP` leaves in the staging vectors, what `WR` leaves
in `OUT`, and what `exec` answers for each where `upc` is not 31. Settles O14, O16, O24 and O25.
-/
namespace Sys2Proof.Machine

/-! ## Rounding (R88, R89) -/

theorem roundShift_halfUp (a : Int) : roundShift .halfUp a = (a + 2 ^ 14) / 2 ^ 15 :=
  ite_self _

theorem roundShift_off_tie (r : SrsRound) {a : Int} (h : a % 2 ^ 15 ≠ 2 ^ 14) :
    roundShift r a = (a + 2 ^ 14) / 2 ^ 15 :=
  if_neg h

/-- `2 ^ 15 * q + 2 ^ 14` is the tie between `q` and `q + 1`. -/
theorem tie_mod (q : Int) : (2 ^ 15 * q + 2 ^ 14) % 2 ^ 15 = 2 ^ 14 := by omega

theorem tie_rounded_up (q : Int) : (2 ^ 15 * q + 2 ^ 14 + 2 ^ 14) / 2 ^ 15 = q + 1 := by omega

theorem roundShift_halfEven_tie (q : Int) :
    roundShift .halfEven (2 ^ 15 * q + 2 ^ 14) = if (q + 1) % 2 = 0 then q + 1 else q := by
  simp only [roundShift, tie_mod, tie_rounded_up, if_true, add_sub_cancel_right]

theorem roundShift_halfAway_tie (q : Int) :
    roundShift .halfAway (2 ^ 15 * q + 2 ^ 14) = if q < 0 then q else q + 1 := by
  have hsign : 2 ^ 15 * q + 2 ^ 14 < 0 ↔ q < 0 := by omega
  simp only [roundShift, tie_mod, tie_rounded_up, hsign, if_true, add_sub_cancel_right]

/-! ## Narrowing (R88, R89) -/

theorem narrow16_saturate (v : Int) : narrow16 .saturate v = min 32767 (max (-32768) v) := rfl

theorem narrow16_wrap (v : Int) : narrow16 .wrap v = (v + 2 ^ 15) % 2 ^ 16 - 2 ^ 15 := rfl

theorem narrow16_of_int16 (m : SrsSat) {v : Int} (hlo : -32768 ≤ v) (hhi : v ≤ 32767) : narrow16 m v = v := by
  cases m with
  | saturate => rw [narrow16_saturate, max_eq_right hlo, min_eq_right hhi]
  | wrap => rw [narrow16_wrap]; omega

/-- Either overflow rule gives an `int16`. -/
theorem narrow16_bounds (m : SrsSat) (v : Int) : -2 ^ 15 ≤ narrow16 m v ∧ narrow16 m v < 2 ^ 15 := by
  cases m with
  | saturate => rw [narrow16_saturate]; omega
  | wrap => rw [narrow16_wrap]; omega

/-- A component of a sample holds a shifted value exactly. -/
theorem ofInt16_srs_toInt (r : SrsRound) (m : SrsSat) (a : Int) : (BitVec.ofInt 16 (srs r m a)).toInt = srs r m a := by
  obtain ⟨hlo, hhi⟩ := narrow16_bounds m (roundShift r a)
  exact BitVec.toInt_ofInt_eq_self (by decide) hlo hhi

/-! ## Two vectors of lanes read in turn -/

@[simp] theorem isDefined_acc0 (s : State) (l : Fin 8) : s.isDefined (.acc0 l) = s.acc0[l.val].isSome := rfl
@[simp] theorem isDefined_acc1 (s : State) (l : Fin 8) : s.isDefined (.acc1 l) = s.acc1[l.val].isSome := rfl
@[simp] theorem isDefined_ov0 (s : State) (l : Fin 8) : s.isDefined (.ov0 l) = s.ov0[l.val].isSome := rfl
@[simp] theorem isDefined_ov1 (s : State) (l : Fin 8) : s.isDefined (.ov1 l) = s.ov1[l.val].isSome := rfl

/-- Place `n` of the order in which `SRSZIP` and `WR` check two vectors: lane `n / 2` of the first where `n` is even, of
the second where it is odd (R92, R94). -/
def laneInTurn (first second : Fin 8 → Elem) (n : Nat) : Elem :=
  let l : Fin 8 := ⟨n / 2 % 8, Nat.mod_lt _ (by decide)⟩
  if n % 2 = 0 then first l else second l

theorem srszipReads_eq : srszipReads = (List.range 16).map (laneInTurn .acc0 .acc1) := rfl

theorem wrReads_eq : wrReads = (List.range 16).map (laneInTurn .ov0 .ov1) := rfl

theorem laneInTurn_even (first second : Fin 8 → Elem) {l : Nat} (h : l < 8) :
    laneInTurn first second (2 * l) = first ⟨l, h⟩ := by
  simp [laneInTurn, Nat.mod_eq_of_lt h]

theorem laneInTurn_odd (first second : Fin 8 → Elem) {l : Nat} (h : l < 8) :
    laneInTurn first second (2 * l + 1) = second ⟨l, h⟩ := by
  have hlane : (2 * l + 1) / 2 % 8 = l := by omega
  simp [laneInTurn, hlane]

section
variable {s : State} {first second : Fin 8 → Elem}

theorem lanes_before_defined {l : Nat} (hl : l ≤ 8)
    (hless : ∀ l' : Fin 8, l'.val < l → s.isDefined (first l') ∧ s.isDefined (second l')) :
    ∀ n < 2 * l, s.isDefined (laneInTurn first second n) = true := by
  intro n hn
  obtain ⟨hfirst, hsecond⟩ := hless ⟨n / 2, by omega⟩ (show n / 2 < l by omega)
  rcases Nat.mod_two_eq_zero_or_one n with hpar | hpar
  · rw [show n = 2 * (n / 2) by omega, laneInTurn_even _ _ (by omega)]
    exact hfirst
  · rw [show n = 2 * (n / 2) + 1 by omega, laneInTurn_odd _ _ (by omega)]
    exact hsecond

theorem lanes_defined (h : ∀ l : Fin 8, s.isDefined (first l) ∧ s.isDefined (second l)) :
    ∀ e ∈ (List.range 16).map (laneInTurn first second), s.isDefined e = true := by
  intro e he
  obtain ⟨n, hn, rfl⟩ := List.mem_map.mp he
  exact lanes_before_defined (Nat.le_refl 8) (fun l _ => h l) n (List.mem_range.mp hn)

theorem firstUndef_first_vector {l : Nat} (hl : l < 8)
    (hless : ∀ l' : Fin 8, l'.val < l → s.isDefined (first l') ∧ s.isDefined (second l'))
    (hundef : ¬ s.isDefined (first ⟨l, hl⟩) = true) :
    s.firstUndef ((List.range 16).map (laneInTurn first second)) = some (first ⟨l, hl⟩) := by
  rw [← laneInTurn_even first second hl] at hundef ⊢
  exact firstUndef_map_least (find?_range_least (by omega)) hundef (lanes_before_defined hl.le hless)

theorem firstUndef_second_vector {l : Nat} (hl : l < 8)
    (hless : ∀ l' : Fin 8, l'.val < l → s.isDefined (first l') ∧ s.isDefined (second l'))
    (hdef : s.isDefined (first ⟨l, hl⟩) = true) (hundef : ¬ s.isDefined (second ⟨l, hl⟩) = true) :
    s.firstUndef ((List.range 16).map (laneInTurn first second)) = some (second ⟨l, hl⟩) := by
  rw [← laneInTurn_odd first second hl] at hundef ⊢
  refine firstUndef_map_least (find?_range_least (by omega)) hundef fun n hn => ?_
  rcases Nat.lt_succ_iff_lt_or_eq.mp hn with hn | rfl
  · exact lanes_before_defined hl.le hless n hn
  · rwa [laneInTurn_even first second hl]

end

/-! ## What `SRSZIP` leaves in the staging vectors -/

theorem getElem_ofFn_append {α : Type} (f : Nat → α) {n : Nat} (h : n < 8 + 8) :
    ((Vector.ofFn fun i : Fin 8 => f i.val) ++ Vector.ofFn fun i : Fin 8 => f (8 + i.val))[n] = f n := by
  rw [Vector.getElem_append]
  split
  · rw [Vector.getElem_ofFn]
  · rw [Vector.getElem_ofFn, Nat.add_sub_cancel' (by omega)]

theorem zipLane_even (s : State) {l : Nat} (h : l < 8) :
    zipLane s (2 * l) = s.acc0[l].map (srsLane s.srsRound s.srsSat) := by
  simp [zipLane, Nat.mod_eq_of_lt h]

theorem zipLane_odd (s : State) {l : Nat} (h : l < 8) :
    zipLane s (2 * l + 1) = s.acc1[l].map (srsLane s.srsRound s.srsSat) := by
  have hlane : (2 * l + 1) / 2 % 8 = l := by omega
  simp [zipLane, hlane]

theorem srsLane_re_toInt (r : SrsRound) (m : SrsSat) (a : Acc) : (srsLane r m a).re.toInt = srs r m a.re.toInt :=
  ofInt16_srs_toInt r m _

theorem srsLane_im_toInt (r : SrsRound) (m : SrsSat) (a : Acc) : (srsLane r m a).im.toInt = srs r m a.im.toInt :=
  ofInt16_srs_toInt r m _

/-! ## What `WR` leaves in `OUT` -/

theorem Memory.writeFrom_append (m : Memory) (i : Nat) (vs ws : List (Option Sample)) :
    Memory.writeFrom m i (vs ++ ws) = Memory.writeFrom (Memory.writeFrom m i vs) (i + vs.length) ws := by
  induction vs generalizing m i with
  | nil => rfl
  | cons v vs ih =>
    rw [List.cons_append, Memory.writeFrom, ih, List.length_cons, Nat.add_right_comm]
    rfl

/-- A read after consecutive writes of samples, in any memory. -/
theorem Memory.read_writeFrom_some (m : Memory) (i k : Nat) {vs : List (Option Sample)} {f : Nat → Sample}
    (hvs : ∀ n (hn : n < vs.length), vs[n] = some (f n)) :
    (Memory.writeFrom m i vs).read k = if i ≤ k ∧ k < i + vs.length then some (f (k - i)) else m.read k := by
  induction vs generalizing m i f with
  | nil => rw [if_neg (by simp)]; rfl
  | cons v vs ih =>
    have hv : v = some (f 0) := hvs 0 (Nat.zero_lt_succ _)
    have htail : ∀ n (hn : n < vs.length), vs[n] = some (f (n + 1)) := fun n hn => hvs (n + 1) (Nat.succ_lt_succ hn)
    rw [Memory.writeFrom, hv, ih _ _ htail, Memory.read_write_some, List.length_cons]
    rcases Nat.lt_trichotomy k i with hk | rfl | hk
    · rw [if_neg (by omega), if_neg (by omega), if_neg (by omega)]
    · rw [if_neg (by omega), if_pos rfl, if_pos (by omega), Nat.sub_self]
    · have hshift : k - (i + 1) + 1 = k - i := by omega
      have hrange : i + 1 ≤ k ∧ k < i + 1 + vs.length ↔ i ≤ k ∧ k < i + (vs.length + 1) := by omega
      rw [if_neg hk.ne', hshift]
      simp only [hrange]

theorem read_staged {s : State} {a b : Nat → Sample}
    (hov : ∀ l (h : l < 8), s.ov0[l] = some (a l) ∧ s.ov1[l] = some (b l)) (q : Nat) :
    (s.out.writeFrom s.op.toNat (s.ov0.toList ++ s.ov1.toList)).read q =
      if s.op.toNat ≤ q ∧ q < s.op.toNat + 8 then some (a (q - s.op.toNat))
      else if s.op.toNat + 8 ≤ q ∧ q < s.op.toNat + 16 then some (b (q - s.op.toNat - 8))
      else s.out.read q := by
  have hov0 : ∀ n (hn : n < s.ov0.toList.length), s.ov0.toList[n] = some (a n) := fun n hn => by
    rw [Vector.getElem_toList]
    exact (hov n _).1
  have hov1 : ∀ n (hn : n < s.ov1.toList.length), s.ov1.toList[n] = some (b n) := fun n hn => by
    rw [Vector.getElem_toList]
    exact (hov n _).2
  rw [Memory.writeFrom_append, Memory.read_writeFrom_some _ _ _ hov1, Memory.read_writeFrom_some _ _ _ hov0,
    Vector.length_toList, Vector.length_toList, Nat.add_assoc, Nat.sub_sub]
  by_cases hq : s.op.toNat ≤ q ∧ q < s.op.toNat + 8
  · rw [if_neg (by omega), if_pos hq, if_pos hq]
  · rw [if_neg hq, if_neg hq]

/-! ## What `exec` answers below `upc` 31 -/

theorem exec_srszip_defined {s : State} (hu : s.upc ≠ 31#5) (h : ∀ e ∈ srszipReads, s.isDefined e = true) :
    exec (.srszip 15#5) s = .next { s with
      ov0 := Vector.ofFn fun i => zipLane s i.val
      ov1 := Vector.ofFn fun i => zipLane s (8 + i.val)
      upc := s.upc + 1#5 } := by
  rw [exec, execSrszip, if_pos rfl, runSequential_ok hu (checkDefined_defined h)]
  rfl

theorem exec_srszip_undefined {s : State} {e : Elem} (hu : s.upc ≠ 31#5) (h : s.firstUndef srszipReads = some e) :
    exec (.srszip 15#5) s = .next (s.raise (.undefRead s.upc e)) :=
  runSequential_error hu (checkDefined_undefined h)

theorem wrEffect_room {s : State} (h : ∀ e ∈ wrReads, s.isDefined e = true) (hroom : s.op.toNat + 16 ≤ s.nout.toNat) :
    wrEffect s = .ok { s with
      out := s.out.writeFrom s.op.toNat (s.ov0.toList ++ s.ov1.toList)
      op := s.op + 16#32 } := by
  rw [wrEffect, checkDefined_defined h, if_neg (Nat.not_lt.mpr hroom)]

theorem wrEffect_overrun {s : State} (h : ∀ e ∈ wrReads, s.isDefined e = true)
    (hroom : s.nout.toNat < s.op.toNat + 16) : wrEffect s = .error (.outOverrun s.upc s.op s.nout) := by
  rw [wrEffect, checkDefined_defined h, if_pos hroom]

theorem exec_wr_room {s : State} (hu : s.upc ≠ 31#5) (h : ∀ e ∈ wrReads, s.isDefined e = true)
    (hroom : s.op.toNat + 16 ≤ s.nout.toNat) :
    exec .wr s = .next { s with
      out := s.out.writeFrom s.op.toNat (s.ov0.toList ++ s.ov1.toList)
      op := s.op + 16#32
      upc := s.upc + 1#5 } := by
  rw [exec, execWr, runSequential_ok hu (wrEffect_room h hroom)]
  rfl

theorem exec_wr_overrun {s : State} (hu : s.upc ≠ 31#5) (h : ∀ e ∈ wrReads, s.isDefined e = true)
    (hroom : s.nout.toNat < s.op.toNat + 16) : exec .wr s = .next (s.raise (.outOverrun s.upc s.op s.nout)) :=
  runSequential_error hu (wrEffect_overrun h hroom)

theorem exec_wr_undefined {s : State} {e : Elem} (hu : s.upc ≠ 31#5) (h : s.firstUndef wrReads = some e) :
    exec .wr s = .next (s.raise (.undefRead s.upc e)) :=
  runSequential_error hu (checkDefined_undefined h)

end Sys2Proof.Machine

namespace Sys2Proof.Proofs
open Sys2Proof.Machine Sys2Proof.Safety

/-- Settles O14: the lanes are checked in turn; where all are defined, place `n` of `OV0 ++ OV1` is `zipLane s n`, whose
components, being `int16` after the narrowing, are held exactly. -/
theorem srszipInterleaves : Obligations.SrszipInterleaves := by
  refine ⟨rfl, fun s hu => ⟨fun a b hacc => ?_, fun l hl hless => ?_⟩⟩
  · have hdefined : ∀ e ∈ srszipReads, s.isDefined e = true :=
      lanes_defined (first := .acc0) (second := .acc1) fun l => by simp [hacc l.val l.isLt]
    refine ⟨_, exec_srszip_defined hu hdefined, fun l hl => ?_, rfl, rfl⟩
    obtain ⟨hacc0, hacc1⟩ := hacc l hl
    refine ⟨srsLane s.srsRound s.srsSat (a l), srsLane s.srsRound s.srsSat (b l), ?_, ?_,
      srsLane_re_toInt .., srsLane_im_toInt .., srsLane_re_toInt .., srsLane_im_toInt ..⟩
    · rw [getElem_ofFn_append (zipLane s), zipLane_even s hl, hacc0, Option.map_some]
    · rw [getElem_ofFn_append (zipLane s), zipLane_odd s hl, hacc1, Option.map_some]
  · have hbefore : ∀ l' : Fin 8, l'.val < l → s.isDefined (.acc0 l') ∧ s.isDefined (.acc1 l') :=
      fun l' h => by simpa [Option.isSome_iff_ne_none] using hless l'.val h
    refine ⟨fun hnone => ?_, fun hsome hnone => ?_⟩
    · have hfirst := firstUndef_first_vector hl hbefore (by simp [hnone])
      exact ⟨_, exec_srszip_undefined hu hfirst, faultState_raise s _⟩
    · have hfirst := firstUndef_second_vector hl hbefore (Option.isSome_iff_ne_none.mpr hsome) (by simp [hnone])
      exact ⟨_, exec_srszip_undefined hu hfirst, faultState_raise s _⟩

/-- Settles O16: the lanes are checked in turn, then the room left; the two runs of eight writes do not overlap, and `OP`
does not wrap since it stays within `NOUT`. -/
theorem wrWritesSixteenSamples : Obligations.WrWritesSixteenSamples := by
  refine ⟨rfl, fun s hu => ⟨fun a b hov hroom => ?_, fun l hl hless => ?_, fun hov hroom => ?_⟩⟩
  · have hdefined : ∀ e ∈ wrReads, s.isDefined e = true :=
      lanes_defined (first := .ov0) (second := .ov1) fun l => by simp [hov l.val l.isLt]
    have hop : (s.op + 16#32).toNat = s.op.toNat + 16 := BitVec.toNat_add_of_lt (hroom.trans_lt s.nout.isLt)
    exact ⟨_, exec_wr_room hu hdefined hroom, read_staged hov, hop, rfl, rfl⟩
  · have hbefore : ∀ l' : Fin 8, l'.val < l → s.isDefined (.ov0 l') ∧ s.isDefined (.ov1 l') :=
      fun l' h => by simpa [Option.isSome_iff_ne_none] using hless l'.val h
    refine ⟨fun hnone => ?_, fun hsome hnone => ?_⟩
    · have hfirst := firstUndef_first_vector hl hbefore (by simp [hnone])
      exact ⟨_, exec_wr_undefined hu hfirst, faultState_raise s _⟩
    · have hfirst := firstUndef_second_vector hl hbefore (Option.isSome_iff_ne_none.mpr hsome) (by simp [hnone])
      exact ⟨_, exec_wr_undefined hu hfirst, faultState_raise s _⟩
  · have hdefined : ∀ e ∈ wrReads, s.isDefined e = true :=
      lanes_defined (first := .ov0) (second := .ov1) fun l => by
        simpa [Option.isSome_iff_ne_none] using hov l.val l.isLt
    exact ⟨_, exec_wr_overrun hu hdefined hroom, faultState_raise s _⟩

/-- Settles O25: off ties every rule is the rounded-up quotient; the tie between `q` and `q + 1` goes up, to the even one
of the two, or by the sign of `q`. -/
theorem srsParameters : Obligations.SrsParameters := by
  refine ⟨fun r a hoff => ?_, fun q => ⟨?_, ?_, ?_, fun hq => ?_, fun hq => ?_⟩,
    fun v hlo hhi => ⟨narrow16_of_int16 _ hlo hhi, narrow16_of_int16 _ hlo hhi⟩, narrow16_wrap, narrow16_saturate⟩
  · rw [roundShift_off_tie r hoff, roundShift_halfUp]
  · rw [roundShift_halfUp, tie_rounded_up]
  · rw [roundShift_halfEven_tie]; split <;> omega
  · rw [roundShift_halfEven_tie]; split <;> simp
  · rw [roundShift_halfAway_tie, if_neg (Int.not_lt.mpr hq)]
  · rw [roundShift_halfAway_tie, if_pos hq]

/-- Settles O24: the default parameters are the rounded-up quotient, then `sat16`. -/
theorem srsDefaultFormula : Obligations.SrsDefaultFormula := by
  intro a
  rw [srs, roundShift_halfUp, narrow16_saturate]

end Sys2Proof.Proofs
end

