-- ==== Sys2Proof/Proofs/Sequencing.lean ====
section
/-!
SUPPORT. `LOOP`, `DONE`, START and the default microprogram (44_sequencing.md R96 to R100): what `exec` answers for each
case of `TRIP`, that no step follows `DONE`, and the order in which START is handled. Settles O17, O18, O40,
O41 and O53.
-/
namespace Sys2Proof.Machine

/-! ## What `exec` answers for `LOOP`, by `TRIP` (R96) -/

theorem exec_loop_branch (tgt : UpcWord) {s : State} (h : 2 ≤ s.trip.toNat) :
    exec (.loop tgt) s = .next { s with trip := s.trip - 1#32, upc := tgt } := by
  have hnonzero : s.trip ≠ 0#32 := by bv_omega
  have hremain : s.trip - 1#32 ≠ 0#32 := by bv_omega
  rw [exec, execLoop, if_neg hnonzero, if_pos hremain]

theorem exec_loop_last (tgt : UpcWord) {s : State} (h : s.trip = 1#32) (hu : s.upc ≠ 31#5) :
    exec (.loop tgt) s = .next { s with trip := 0#32, upc := s.upc + 1#5 } := by
  rw [exec, execLoop, h, if_neg (by decide), if_neg (by decide), if_neg hu]

theorem exec_loop_last_overflow (tgt : UpcWord) {s : State} (h : s.trip = 1#32) (hu : s.upc = 31#5) :
    exec (.loop tgt) s = .next (s.raise (.upcOverflow s.upc)) := by
  rw [exec, execLoop, h, if_neg (by decide), if_neg (by decide), if_pos hu, takeFault]

theorem exec_loop_badTrip (tgt : UpcWord) {s : State} (h : s.trip = 0#32) :
    exec (.loop tgt) s = .next (s.raise (.badTrip s.upc)) := by
  rw [exec, execLoop, if_pos h, takeFault]

/-! ## The engine rests while BUSY = 0 (R95) -/

theorem engineStep_idle {s t : State} (h : s.status.busy = false) : engineStep s ≠ .next t := by
  intro hstep
  obtain ⟨hbusy, -, -⟩ := engineStep_cases hstep
  simp [h] at hbusy

/-! ## START, in the order of R98 -/

theorem hostStart_busy {s : State} (hb : s.status.busy = true) : hostStart s = .refused .startWhileBusy := by
  rw [hostStart, if_pos hb]

theorem hostStart_faulted {s : State} (hb : s.status.busy = false) (hf : s.status.fault = true) :
    hostStart s = .next s := by
  simp [hostStart, hb, hf]

theorem hostStart_rejected {s : State} (hb : s.status.busy = false) (hf : s.status.fault = false)
    (hn : legalNout s.nout = false) : hostStart s = .next s.rejectStart := by
  simp [hostStart, hb, hf, hn]

theorem begin_trip_toNat (s : State) : s.begin.trip.toNat = s.nout.toNat / 64 :=
  Nat.mod_eq_of_lt ((Nat.div_le_self ..).trans_lt s.nout.isLt)

end Sys2Proof.Machine

namespace Sys2Proof.Proofs
open Sys2Proof.Machine Sys2Proof.Safety

/-- Settles O17, by the value of `TRIP`: at 2 or more the branch, at 1 the fall-through or, from 31, the overflow, at 0
the fault. -/
theorem loopBranchesOrFallsThrough : Obligations.LoopBranchesOrFallsThrough := by
  intro tgt
  have hword : (encode (.loop tgt)).toNat = 0x7000 + tgt.toNat :=
    toNat_or_operand 0x7000#16 tgt (by decide) (by decide)
  refine ⟨hword, fun s => ⟨fun hmore => ?_, fun hlast hu => ?_, fun hzero => ?_, fun hlast hu => ?_⟩⟩
  · have hcount : (s.trip - 1#32).toNat = s.trip.toNat - 1 := by bv_omega
    exact ⟨_, exec_loop_branch tgt hmore, hcount, rfl, rfl⟩
  · exact ⟨_, exec_loop_last tgt (BitVec.eq_of_toNat_eq hlast) hu, rfl, rfl, rfl⟩
  · exact ⟨_, exec_loop_badTrip tgt (BitVec.eq_of_toNat_eq hzero), faultState_raise s _⟩
  · exact ⟨_, exec_loop_last_overflow tgt (BitVec.eq_of_toNat_eq hlast) hu, hu ▸ faultState_raise s _⟩

/-- Settles O18: `DONE` writes the status alone, and with BUSY cleared the engine has no step. -/
theorem doneEndsTheInvocation : Obligations.DoneEndsTheInvocation :=
  ⟨rfl, fun _ => ⟨_, rfl, rfl, rfl, fun _ => engineStep_idle (statusCompleted_busy _)⟩⟩

/-- Settles O40: the accepted START answers `State.begin`, whose fields are those of R99. -/
theorem startBeginsAnInvocation : Obligations.StartBeginsAnInvocation := by
  intro s v hv hb hf hpos hmod
  have hstart : hostMove (.writeReg 0 v) s = .next s.begin :=
    (writeReg_ctrl_set hv s).trans (hostStart_accepted hb hf ((legalNout_iff _).mpr ⟨hpos, hmod⟩))
  refine ⟨s.begin, hstart, rfl, rfl, begin_trip_toNat s, rfl, rfl, fun i hi => ?_, fun l hl => ?_, fun q => rfl,
    rfl, rfl, rfl, rfl, rfl, rfl, rfl, rfl⟩
  · simp
  · simp

/-- Settles O41, case by case in the order of R98. -/
theorem startIsHandledInOrder : Obligations.StartIsHandledInOrder := by
  intro s v
  refine ⟨(writeReg_ctrl_clear · s), fun hv => ?_⟩
  rw [writeReg_ctrl_set hv]
  refine ⟨hostStart_busy, hostStart_faulted, fun hb hf hnout => ?_, fun hb hf hnonzero hmod => ?_⟩
  · have hillegal : legalNout s.nout = false := by
      rw [← Bool.not_eq_true, legalNout_iff]
      omega
    exact ⟨_, hostStart_rejected hb hf hillegal, rfl, rfl, rfl⟩
  · have hlegal : legalNout s.nout = true := (legalNout_iff _).mpr ⟨Nat.pos_of_ne_zero hnonzero, hmod⟩
    exact ⟨_, hostStart_accepted hb hf hlegal, rfl, begin_trip_toNat s⟩

/-- Settles O53: the words of R100 are the assembler's, one by one. -/
theorem defaultMicroprogram : Obligations.DefaultMicroprogram := by
  unfold Obligations.DefaultMicroprogram
  decide

end Sys2Proof.Proofs
end

