-- ==== Sys2Proof/Proofs/Exceptions.lean ====
section
/-!
SUPPORT. The block's faults (60_exceptions.md R117 to R120): a micro-op either takes a fault, which writes the fault state
alone, or keeps FAULT as it was; and a faulted block stands still until the host's reset. Settles O20 and O48.
-/
namespace Sys2Proof.Machine

/-! ## A micro-op raises a fault or leaves FAULT as it was -/

/-- Only a fault's raise writes FAULT: the effects of the rules write other fields, and `DONE` only BUSY and DONE. -/
theorem exec_raises_or_keeps_fault {i : Instr} {s t : State} (h : exec i s = .next t) :
    (∃ f, t = s.raise f) ∨ t.status.fault = s.status.fault := by
  cases i with
  | ldc => exact (execLdc_cases h).imp_right fun ⟨_, ht⟩ => ht ▸ rfl
  | upd slot => exact (execUpd_cases h).imp_right fun ⟨_, _, ht⟩ => ht ▸ rfl
  | mulsym x => exact (execMulsym_cases h).imp_right fun ⟨_, _, ht⟩ => ht ▸ rfl
  | mulctr x => exact (execMulctr_cases h).imp_right fun ⟨_, _, ht⟩ => ht ▸ rfl
  | srszip sh => exact (execSrszip_cases h).imp_right fun ⟨_, _, _, ht⟩ => ht ▸ rfl
  | wr => exact (execWr_cases h).imp_right fun ⟨_, _, _, ht⟩ => ht ▸ rfl
  | loop tgt =>
    rcases execLoop_cases h with hraise | ⟨-, -, rfl⟩ | ⟨-, -, rfl⟩
    · exact .inl hraise
    · exact .inr rfl
    · exact .inr rfl
  | done => exact .inr (execDone_cases h ▸ rfl)

/-! ## A faulted block stands still until reset -/

theorem engineStep_faulted {s : State} (hf : s.status.fault = true) : engineStep s = .fault .stopped := by
  rw [engineStep, fetch, if_pos hf]

/-- Whatever is written to `CTRL`, START is ignored (44_sequencing.md R98). -/
theorem writeReg_ctrl_faulted {s : State} (hb : s.status.busy = false) (hf : s.status.fault = true) (v : RegWord) :
    hostMove (.writeReg 0 v) s = .next s := by
  cases hv : v.getLsbD 0 with
  | false => exact writeReg_ctrl_clear hv s
  | true => rw [writeReg_ctrl_set hv, hostStart_faulted hb hf]

/-- No host move but reset and START writes the status, and a faulted block ignores START. -/
theorem hostMove_faulted_keeps_status {a : HostAction} {s t : State} (hf : s.status.fault = true) (ha : a ≠ .reset)
    (h : hostMove a s = .next t) : t.status = s.status := by
  rcases hostMove_cases h with ⟨_, _, _, rfl, -⟩ | ⟨-, _, rfl⟩ | ⟨-, _, -, rfl⟩ | hstart | ⟨hreset, -⟩
  · rfl
  · rfl
  · rfl
  · obtain ⟨hb, -⟩ := hostStart_cases hstart
    rw [hostStart_faulted hb hf, next_inj] at hstart
    rw [hstart]
  · exact absurd hreset ha

theorem step_faulted_keeps_status {s t : State} (hf : s.status.fault = true)
    (hturn : ∀ rest, s.turns ≠ .host .reset :: rest) (h : step s = .next t) : t.status = s.status := by
  rcases step_cases h with ⟨rest, he⟩ | ⟨a, rest, hs, hm⟩
  · cases (engineStep_faulted (s := { s with turns := rest }) hf).symm.trans he
  · have ha : a ≠ .reset := fun hreset => hturn rest (hreset ▸ hs)
    exact hostMove_faulted_keeps_status (s := { s with turns := rest }) hf ha hm

theorem step_reset {s : State} {rest : List Turn} (hs : s.turns = .host .reset :: rest) :
    step s = .next { s with turns := rest }.applyReset := by
  rw [step, State.takeTurn, hs]
  rfl

end Sys2Proof.Machine

namespace Sys2Proof.Proofs
open Sys2Proof.Machine Sys2Proof.Safety

/-- Settles O20: from an unfaulted state, a next state with FAULT set is one that `State.raise` left. -/
theorem faultsArePrecise : Obligations.FaultsArePrecise := by
  intro i s t hf hexec hft
  rcases exec_raises_or_keeps_fault hexec with ⟨f, rfl⟩ | hkept
  · exact ⟨f, faultState_raise s f⟩
  · simp [hkept, hf] at hft

/-- Settles O48: a faulted engine is stopped, START is ignored, and of the host's moves reset alone writes the status. -/
theorem faultIsSticky : Obligations.FaultIsSticky := by
  intro s hf
  refine ⟨engineStep_faulted hf, fun hb v => writeReg_ctrl_faulted hb hf v, fun t hstep => ⟨fun rest hs => ?_,
    fun hturn => ?_⟩⟩
  · rw [step_reset hs, next_inj] at hstep
    subst hstep
    exact ⟨rfl, rfl⟩
  · have hstatus : t.status = s.status := step_faulted_keeps_status hf hturn hstep
    exact ⟨hstatus ▸ hf, congrArg Status.fcode hstatus⟩

end Sys2Proof.Proofs
end

