-- ==== Sys2Proof/Proofs/Decoding.lean ====
section
/-!
SUPPORT. The decoder against the encoder (30_encoding.md R70 to R72): a word is its fields, so a legal word is the
encoding of what it decodes to, and the illegal words are those whose fields are reserved. Settles O1, O3 and O4.
-/
namespace Sys2Proof

/-! ## A word from its fields -/

theorem arg2_toNat (w : UopWord) : (arg2 w).toNat = w.toNat % 2 ^ 2 := by
  rw [arg2, BitVec.extractLsb'_toNat, Nat.shiftRight_zero]

theorem arg5_toNat (w : UopWord) : (arg5 w).toNat = w.toNat % 2 ^ 5 := by
  rw [arg5, BitVec.extractLsb'_toNat, Nat.shiftRight_zero]

theorem toNat_of_fixed {w : UopWord} {op : BitVec 4} {arg : BitVec 12} (hop : opField w = op)
    (harg : argField w = arg) : w.toNat = op.toNat * 2 ^ 12 + arg.toNat := by
  rw [opField_eq_iff] at hop
  rw [argField_eq_iff] at harg
  omega

theorem toNat_of_formatS {w : UopWord} {op : BitVec 4} (hop : opField w = op) (hclear : reserved2Clear w = true) :
    w.toNat = op.toNat * 2 ^ 12 + (arg2 w).toNat := by
  rw [opField_eq_iff] at hop
  rw [reserved2Clear_iff] at hclear
  rw [arg2_toNat]
  omega

theorem toNat_of_formatXT {w : UopWord} {op : BitVec 4} (hop : opField w = op) (hclear : reserved5Clear w = true) :
    w.toNat = op.toNat * 2 ^ 12 + (arg5 w).toNat := by
  rw [opField_eq_iff] at hop
  rw [reserved5Clear_iff] at hclear
  rw [arg5_toNat]
  omega

/-! ## Decoding and encoding are inverse -/

/-- An operand in the low bits of its base word is the encoding of that operand (R70). -/
theorem or_operand_eq {n : Nat} {base w : UopWord} {operand : BitVec n} (hn : n ≤ 16) (hbase : 2 ^ n ∣ base.toNat)
    (hw : w.toNat = base.toNat + operand.toNat) : base ||| operand.setWidth 16 = w :=
  BitVec.eq_of_toNat_eq ((toNat_or_operand base operand hn hbase).trans hw.symm)

/-- The word of a legal micro-op decodes to it: the fields hold what the encoder put there. -/
theorem decode_encode {i : Instr} (h : i.wf = true) : decode (encode i) = .uop i := by
  cases i with
  | ldc | wr | done => decide
  | upd slot => revert slot; decide
  | mulsym x => revert x; decide
  | mulctr x => revert x; decide
  | loop tgt => revert tgt; decide
  | srszip sh =>
    have hsh : sh = 15#5 := by simpa [Instr.wf] using h
    subst hsh
    decide

/-- A word that decodes is the encoding of a legal micro-op: every bit of it is `OP`, operand or reserved. -/
theorem encode_of_decode {w : UopWord} {i : Instr} (h : decode w = .uop i) : i.wf = true ∧ encode i = w := by
  rw [decode] at h
  split_ifs at h with hldc hupd hmulsym hmulctr hsrszip hwr hloop hdone <;> cases h
  · exact ⟨rfl, BitVec.eq_of_toNat_eq (toNat_of_fixed hldc.1 hldc.2).symm⟩
  · exact ⟨rfl, or_operand_eq (by decide) (by decide) (toNat_of_formatS hupd.1 hupd.2)⟩
  · exact ⟨rfl, or_operand_eq (by decide) (by decide) (toNat_of_formatXT hmulsym.1 hmulsym.2)⟩
  · exact ⟨rfl, or_operand_eq (by decide) (by decide) (toNat_of_formatXT hmulctr.1 hmulctr.2)⟩
  · have hw := toNat_of_fixed hsrszip.1 hsrszip.2
    have hsh : arg5 w = 15#5 := BitVec.eq_of_toNat_eq (by rw [arg5_toNat, hw]; rfl)
    rw [hsh]
    exact ⟨rfl, BitVec.eq_of_toNat_eq hw.symm⟩
  · exact ⟨rfl, BitVec.eq_of_toNat_eq (toNat_of_fixed hwr.1 hwr.2).symm⟩
  · exact ⟨rfl, or_operand_eq (by decide) (by decide) (toNat_of_formatXT hloop.1 hloop.2)⟩
  · exact ⟨rfl, BitVec.eq_of_toNat_eq (toNat_of_fixed hdone.1 hdone.2).symm⟩

end Sys2Proof

namespace Sys2Proof.Proofs

/-- Settles O1: the encoder fills the fields that the decoder reads, and these are the whole word. -/
theorem decodeIffEncode : Obligations.DecodeIffEncode := by
  intro w i
  refine ⟨encode_of_decode, ?_⟩
  rintro ⟨hwf, rfl⟩
  exact decode_encode hwf

/-- Settles O3: with the decoder's tests read as tests on the quotient and the remainder of the word by 4096, its last
branch is what the others leave over. -/
theorem illegalWordsAreTheReserved : Obligations.IllegalWordsAreTheReserved := by
  intro w
  rw [decode]
  simp only [opField_eq_iff, argField_eq_iff, reserved2Clear_iff, reserved5Clear_iff, BitVec.toNat_ofNat,
    List.mem_cons, List.not_mem_nil, or_false]
  split_ifs <;> simp only [exists_false, false_iff, Decoded.illegal.injEq, exists_eq', true_iff] <;> omega

/-- Settles O4: each of the words is evaluated. -/
theorem specWordsDecode : Obligations.SpecWordsDecode := by
  unfold Obligations.SpecWordsDecode
  decide

end Sys2Proof.Proofs
end

