-- ==== Sys2Proof/Proofs/EngineStep.lean ====
section
/-!
SUPPORT. The engine's step (44_sequencing.md R95) and what every micro-op answers (60_exceptions.md R116 to R119): when
the engine has a step, what it runs, and which state each micro-op writes. Settles O6, O7, O8, O15, O19, O21 and O22.
-/
namespace Sys2Proof.Machine

/-! ## Every micro-op answers a next state -/

theorem runSequential_next (effect : State → Except FaultInfo State) (s : State) :
    ∃ t, runSequential effect s = .next t := by
  rw [runSequential]
  split
  · exact ⟨_, rfl⟩
  · split <;> exact ⟨_, rfl⟩

theorem execLoop_next (tgt : UpcWord) (s : State) : ∃ t, execLoop tgt s = .next t := by
  rw [execLoop]
  split_ifs <;> exact ⟨_, rfl⟩

theorem execSrszip_other_shift {sh : BitVec 5} (h : sh ≠ 15#5) (s : State) :
    execSrszip sh s = .next (s.raise (.illegalUop (encode (.srszip sh)) s.upc)) := by
  rw [execSrszip, if_neg h, takeFault]

theorem execSrszip_next (sh : BitVec 5) (s : State) : ∃ t, execSrszip sh s = .next t := by
  by_cases h : sh = 15#5
  · rw [execSrszip, if_pos h]
    exact runSequential_next srszipEffect s
  · exact ⟨_, execSrszip_other_shift h s⟩

theorem exec_next (i : Instr) (s : State) : ∃ t, exec i s = .next t := by
  cases i with
  | ldc => exact runSequential_next ldcEffect s
  | upd slot => exact runSequential_next (updEffect slot) s
  | mulsym x => exact runSequential_next (mulsymEffect x) s
  | mulctr x => exact runSequential_next (mulctrEffect x) s
  | srszip sh => exact execSrszip_next sh s
  | wr => exact runSequential_next wrEffect s
  | loop tgt => exact execLoop_next tgt s
  | done => exact ⟨_, rfl⟩

/-! ## When the engine has a step, and what it runs (R95) -/

theorem engineStep_uop {s : State} {i : Instr} (hb : s.status.busy = true) (hf : s.status.fault = false)
    (hd : decode s.fetchWord = .uop i) : engineStep s = exec i s := by
  rw [engineStep, fetch_busy hb hf hd]

theorem fetch_illegal_word {s : State} {w : UopWord} (hb : s.status.busy = true) (hf : s.status.fault = false)
    (hd : decode s.fetchWord = .illegal w) : fetch s = .illegal w := by
  simp [fetch, hb, hf, hd]

theorem engineStep_illegal {s : State} {w : UopWord} (hb : s.status.busy = true) (hf : s.status.fault = false)
    (hd : decode s.fetchWord = .illegal w) : engineStep s = .next (s.raise (.illegalUop w s.upc)) := by
  rw [engineStep, fetch_illegal_word hb hf hd]
  rfl

theorem engineStep_resting {s : State} (hb : s.status.busy = false) (hf : s.status.fault = false) :
    engineStep s = .fault .idle := by
  simp [engineStep, fetch, hb, hf]

theorem engineStep_next_iff (s : State) :
    (∃ t, engineStep s = .next t) ↔ s.status.busy = true ∧ s.status.fault = false := by
  constructor
  · rintro ⟨t, h⟩
    obtain ⟨hb, hf, -⟩ := engineStep_cases h
    exact ⟨hb, hf⟩
  · rintro ⟨hb, hf⟩
    cases hd : decode s.fetchWord with
    | uop i =>
      rw [engineStep_uop hb hf hd]
      exact exec_next i s
    | illegal w => exact ⟨_, engineStep_illegal hb hf hd⟩

/-- A listed turn of the engine is used up by its step. -/
theorem step_engine_listed {s : State} {rest : List Turn} (h : s.turns = .engine :: rest) :
    step s = engineStep { s with turns := rest } := by
  rw [step, State.takeTurn, h]

end Sys2Proof.Machine

namespace Sys2Proof.Safety
open Sys2Proof.Machine

theorem takesFault_of_raise {i : Instr} {s : State} {f : FaultInfo} (h : exec i s = .next (s.raise f)) :
    TakesFault i s (faultCode f) f :=
  ⟨_, h, faultState_raise s f⟩

theorem engineStep_takes_illegal {s : State} {w : UopWord} (hb : s.status.busy = true) (hf : s.status.fault = false)
    (hd : decode s.fetchWord = .illegal w) :
    ∃ t, engineStep s = .next t ∧ FaultState s 1#4 (.illegalUop w s.upc) t :=
  ⟨_, engineStep_illegal hb hf hd, faultState_raise s (.illegalUop w s.upc)⟩

/-- A micro-op that answers takes a fault, or keeps the recorded one while the sequencer moves as R95 to R97 say. -/
theorem exec_raises_or_moves {i : Instr} {s t : State} (h : exec i s = .next t) :
    (∃ f, t = s.raise f) ∨ (t.faultInfo = s.faultInfo ∧ SequencerMoves i s t) := by
  cases i with
  | ldc => exact (execLdc_cases h).imp_right fun ⟨hu, ht⟩ => ht ▸ ⟨rfl, hu, rfl, rfl, rfl⟩
  | upd slot => exact (execUpd_cases h).imp_right fun ⟨hu, _, ht⟩ => ht ▸ ⟨rfl, hu, rfl, rfl, rfl⟩
  | mulsym x => exact (execMulsym_cases h).imp_right fun ⟨hu, _, ht⟩ => ht ▸ ⟨rfl, hu, rfl, rfl, rfl⟩
  | mulctr x => exact (execMulctr_cases h).imp_right fun ⟨hu, _, ht⟩ => ht ▸ ⟨rfl, hu, rfl, rfl, rfl⟩
  | srszip sh => exact (execSrszip_cases h).imp_right fun ⟨_, hu, _, ht⟩ => ht ▸ ⟨rfl, hu, rfl, rfl, rfl⟩
  | wr => exact (execWr_cases h).imp_right fun ⟨hu, _, _, ht⟩ => ht ▸ ⟨rfl, hu, rfl, rfl, rfl⟩
  | loop tgt =>
    refine (execLoop_cases h).imp_right ?_
    rintro (⟨hzero, hone, rfl⟩ | ⟨hone, -, rfl⟩)
    · exact ⟨rfl, hzero, rfl, (if_neg hone).symm, rfl⟩
    · exact ⟨rfl, by simp [hone], by simp [hone], (if_pos hone).symm, rfl⟩
  | done =>
    have ht := execDone_cases h
    subst ht
    exact .inr ⟨rfl, rfl, rfl, rfl⟩

end Sys2Proof.Safety

namespace Sys2Proof.Proofs
open Sys2Proof.Machine Sys2Proof.Safety

/-- Settles O6: whether the turn is listed or not, the engine's step is the decoded micro-op's meaning. -/
theorem stepRunsTheDecodedMicroOp : Obligations.StepRunsTheDecodedMicroOp := by
  intro s i hb hf hd
  refine ⟨fun hs => ?_, fun rest hs => ?_⟩
  · rw [step_engine hs]
    exact engineStep_uop hb hf hd
  · rw [step_engine_listed hs]
    exact engineStep_uop (s := { s with turns := rest }) hb hf hd

/-- Settles O7: an illegal word's step is the raise of `ILLEGAL_UOP`. -/
theorem illegalWordFaultsOnFetch : Obligations.IllegalWordFaultsOnFetch := by
  intro s w hb hf hd
  refine ⟨fun hs => ?_, fun rest hs => ?_⟩
  · rw [step_engine hs]
    exact engineStep_takes_illegal hb hf hd
  · rw [step_engine_listed hs]
    exact engineStep_takes_illegal (s := { s with turns := rest }) hb hf hd

/-- Settles O8: a busy, unfaulted engine answers whatever its word decodes to, since every micro-op does. -/
theorem engineStepsExactlyWhenRunning : Obligations.EngineStepsExactlyWhenRunning := by
  intro s hturn
  rcases hturn with hs | ⟨rest, hs⟩
  · rw [step_engine hs]
    exact ⟨engineStep_next_iff s, engineStep_faulted, engineStep_resting⟩
  · rw [step_engine_listed hs]
    exact ⟨engineStep_next_iff _, engineStep_faulted (s := { s with turns := rest }),
      engineStep_resting (s := { s with turns := rest })⟩

/-- Settles O15: the term's word is the operand added to 0x5000. -/
theorem srszipOtherShiftIsIllegal : Obligations.SrszipOtherShiftIsIllegal := by
  intro s sh hsh
  have hword : encode (.srszip sh) = BitVec.ofNat 16 (0x5000 + sh.toNat) :=
    BitVec.eq_of_toNat_eq (by
      rw [BitVec.toNat_ofNat, Nat.mod_eq_of_lt (by omega)]
      exact toNat_or_operand 0x5000#16 sh (by decide) (by decide))
  rw [← hword]
  exact takesFault_of_raise (i := .srszip sh) (execSrszip_other_shift hsh s)

/-- Settles O19: the overflow stands before the effect in every sequential micro-op. -/
theorem sequentialOverflowComesFirst : Obligations.SequentialOverflowComesFirst := by
  intro s i hu hwf hloop hdone
  have hover : ∀ effect, runSequential effect s = .next (s.raise (.upcOverflow 31#5)) := fun effect =>
    (runSequential_overflow hu).trans (by rw [hu])
  refine takesFault_of_raise (f := .upcOverflow 31#5) ?_
  cases i with
  | ldc => exact hover ldcEffect
  | upd slot => exact hover (updEffect slot)
  | mulsym x => exact hover (mulsymEffect x)
  | mulctr x => exact hover (mulctrEffect x)
  | srszip sh =>
    have hsh : sh = 15#5 := by simpa [Instr.wf] using hwf
    exact (if_pos hsh).trans (hover srszipEffect)
  | wr => exact hover wrEffect
  | loop tgt => exact absurd rfl (hloop tgt)
  | done => exact absurd rfl hdone

/-- Settles O21: the raise is the fault state, and the rest is the sequencer's move of the micro-op's rule. -/
theorem everyMicroOpAnswersANextState : Obligations.EveryMicroOpAnswersANextState := by
  intro i s
  obtain ⟨t, h⟩ := exec_next i s
  refine ⟨t, h, (exec_raises_or_moves h).imp_left ?_⟩
  rintro ⟨f, rfl⟩
  exact ⟨f, faultState_raise s f⟩

/-- Settles O22: a fault's raise writes no element, and each effect only those of its rule. -/
theorem onlyItsWriterWritesAnElement : Obligations.OnlyItsWriterWritesAnElement := by
  intro i s t h
  cases i with
  | ldc => rcases execLdc_cases h with ⟨f, rfl⟩ | ⟨-, rfl⟩ <;> simp
  | upd slot => rcases execUpd_cases h with ⟨f, rfl⟩ | ⟨-, -, rfl⟩ <;> simp
  | mulsym x => rcases execMulsym_cases h with ⟨f, rfl⟩ | ⟨-, -, rfl⟩ <;> simp
  | mulctr x => rcases execMulctr_cases h with ⟨f, rfl⟩ | ⟨-, -, rfl⟩ <;> simp
  | srszip sh => rcases execSrszip_cases h with ⟨f, rfl⟩ | ⟨-, -, -, rfl⟩ <;> simp
  | wr => rcases execWr_cases h with ⟨f, rfl⟩ | ⟨-, -, -, rfl⟩ <;> simp
  | loop tgt => rcases execLoop_cases h with ⟨f, rfl⟩ | ⟨-, -, rfl⟩ | ⟨-, -, rfl⟩ <;> simp
  | done =>
    have ht := execDone_cases h
    subst ht
    simp

end Sys2Proof.Proofs
end

