-- ==== Sys2Proof/Proofs/ClosedForm.lean ====
section
/-!
SUPPORT. The laws of the closed form (45_invocation.md R105 to R114): sums over the taps folded by symmetry or split by
parity, what one component of the window reads, and from these the direct form, the zero-stuffed filter, the responses
to constants and impulses, and the continuation over windows. Settles O29 to O34.
-/
namespace Sys2Proof.Safety
open Sys2Proof.Machine

/-! ## Sums over the taps -/

/-- Seven products with the sum of a symmetric pair are fourteen products (R83, R107). -/
theorem sum_symmetric_pairs {c x : Nat → Int} (hsym : ∀ k < 7, c k = c (13 - k)) :
    ∑ k ∈ Finset.range 7, c k * (x (13 - k) + x k) = ∑ k ∈ Finset.range 14, c k * x (13 - k) := by
  have hupper : ∑ k ∈ Finset.range 7, c (7 + k) * x (13 - (7 + k)) = ∑ k ∈ Finset.range 7, c k * x k := by
    rw [← Finset.sum_range_reflect (fun k => c k * x k) 7]
    refine Finset.sum_congr rfl fun k hk => ?_
    have hk7 := Finset.mem_range.mp hk
    rw [hsym (7 - 1 - k) (by omega), show 13 - (7 - 1 - k) = 7 + k by omega, show 13 - (7 + k) = 7 - 1 - k by omega]
  rw [Finset.sum_range_add (fun k => c k * x (13 - k)) 7 7, hupper, ← Finset.sum_add_distrib]
  simp only [mul_add]

/-- An odd number of terms, the even-index ones first. -/
theorem sum_range_by_parity (f : Nat → Int) (n : Nat) :
    ∑ i ∈ Finset.range (2 * n + 1), f i =
      ∑ k ∈ Finset.range (n + 1), f (2 * k) + ∑ k ∈ Finset.range n, f (2 * k + 1) := by
  induction n with
  | zero => simp
  | succ n ih =>
    have hlast : 2 * n + 1 + 1 = 2 * (n + 1) := by omega
    rw [show 2 * (n + 1) + 1 = 2 * n + 1 + 1 + 1 by omega, Finset.sum_range_succ, Finset.sum_range_succ, ih,
      Finset.sum_range_succ _ (n + 1), Finset.sum_range_succ (fun k => f (2 * k + 1)), hlast]
    omega

theorem tap_of_lt (rom : Vector S16 31) {i : Nat} (h : i < 31) : tap rom i = rom[i].toInt := dif_pos h

/-- `ROM_SYMMETRIC` on the even-index taps (R13). -/
theorem RomSymmetric.even_taps {c : Vector S16 31} (h : RomSymmetric c) :
    ∀ k < 7, tap c (2 * k) = tap c (2 * (13 - k)) := by
  intro k hk
  rw [h (2 * k) (by omega), show 26 - 2 * k = 2 * (13 - k) by omega]

/-! ## The two streams (R105) -/

theorem exactOut_even (c : Vector S16 31) (x : Nat → Int) (j : Nat) : exactOut c x (2 * j) = evenSum c x j := by
  rw [exactOut, if_pos (Nat.mul_mod_right 2 j), Nat.mul_div_cancel_left j (by decide)]

theorem exactOut_odd (c : Vector S16 31) (x : Nat → Int) (j : Nat) :
    exactOut c x (2 * j + 1) = oddProduct c x j := by
  rw [exactOut, if_neg (by omega), show (2 * j + 1) / 2 = j by omega]

theorem closedOut_of_exact {r : SrsRound} {m : SrsSat} {c : Vector S16 31} {inp : List Sample} {q : Nat} {re im : Int}
    (hre : exactOut c (inComp Sample.re inp) q = re) (him : exactOut c (inComp Sample.im inp) q = im) :
    closedOut r m c inp q = { re := BitVec.ofInt 16 (srs r m re), im := BitVec.ofInt 16 (srs r m im) } := by
  rw [closedOut, hre, him]

/-- The sum of pair `j` reads the samples 3 + j to 16 + j alone (R106). -/
theorem evenSum_congr (c : Vector S16 31) {x y : Nat → Int} {j : Nat} (h : ∀ m, 3 + j ≤ m → m ≤ 16 + j → x m = y m) :
    evenSum c x j = evenSum c y j := by
  refine Finset.sum_congr rfl fun k hk => ?_
  have hk7 := Finset.mem_range.mp hk
  rw [h (16 + j - k) (by omega) (by omega), h (3 + j + k) (by omega) (by omega)]

theorem oddProduct_congr (c : Vector S16 31) {x y : Nat → Int} {j : Nat}
    (h : ∀ m, 3 + j ≤ m → m ≤ 16 + j → x m = y m) : oddProduct c x j = oddProduct c y j := by
  rw [oddProduct, oddProduct, h (10 + j) (by omega) (by omega)]

/-- The filtered sum under `ROM_SYMMETRIC` is the 14-tap direct form (R107). -/
theorem evenSum_direct {c : Vector S16 31} (h : RomSymmetric c) (x : Nat → Int) (j : Nat) :
    evenSum c x j = ∑ k ∈ Finset.range 14, tap c (2 * k) * x (16 + j - k) := by
  calc evenSum c x j
      = ∑ k ∈ Finset.range 7, tap c (2 * k) * (x (3 + j + (13 - k)) + x (3 + j + k)) :=
        Finset.sum_congr rfl fun k hk => by
          have hk7 := Finset.mem_range.mp hk
          rw [show 3 + j + (13 - k) = 16 + j - k by omega]
    _ = ∑ k ∈ Finset.range 14, tap c (2 * k) * x (3 + j + (13 - k)) :=
        sum_symmetric_pairs (c := fun k => tap c (2 * k)) (x := fun m => x (3 + j + m)) h.even_taps
    _ = ∑ k ∈ Finset.range 14, tap c (2 * k) * x (16 + j - k) :=
        Finset.sum_congr rfl fun k hk => by
          have hk14 := Finset.mem_range.mp hk
          rw [show 3 + j + (13 - k) = 16 + j - k by omega]

/-! ## The filter on the zero-stuffed input (R108) -/

theorem zeroStuffed_even (x : Nat → Int) (p : Nat) : zeroStuffed x (2 * p) = x p := by
  rw [zeroStuffed, if_pos (Nat.mul_mod_right 2 p), Nat.mul_div_cancel_left p (by decide)]

theorem zeroStuffed_odd (x : Nat → Int) {p : Nat} (h : p % 2 = 1) : zeroStuffed x p = 0 := by
  rw [zeroStuffed, if_neg (by omega)]

/-- At an even output the even-index taps meet the samples and the odd-index ones the stuffed zeros. -/
theorem filter27_even (c : Vector S16 31) (x : Nat → Int) (j : Nat) :
    filter27 c (zeroStuffed x) (2 * j) = ∑ k ∈ Finset.range 14, tap c (2 * k) * x (16 + j - k) := by
  have heven : ∀ k ∈ Finset.range 14, tap c (2 * k) * zeroStuffed x (32 + 2 * j - 2 * k) =
      tap c (2 * k) * x (16 + j - k) := fun k _ => by
    rw [show 32 + 2 * j - 2 * k = 2 * (16 + j - k) by omega, zeroStuffed_even]
  have hodd : ∀ k ∈ Finset.range 13, tap c (2 * k + 1) * zeroStuffed x (32 + 2 * j - (2 * k + 1)) = 0 := fun k hk => by
    have hk13 := Finset.mem_range.mp hk
    rw [zeroStuffed_odd x (by omega), mul_zero]
  rw [filter27, sum_range_by_parity _ 13, Finset.sum_congr rfl heven, Finset.sum_eq_zero hodd, add_zero]

/-- At an odd output the odd-index taps meet the samples, and of those `ROM_HALFBAND` leaves the centre. -/
theorem filter27_odd {c : Vector S16 31} (h : RomHalfband c) (x : Nat → Int) (j : Nat) :
    filter27 c (zeroStuffed x) (2 * j + 1) = tap c 13 * x (10 + j) := by
  have heven : ∀ k ∈ Finset.range 14, tap c (2 * k) * zeroStuffed x (32 + (2 * j + 1) - 2 * k) = 0 := fun k hk => by
    have hk14 := Finset.mem_range.mp hk
    rw [zeroStuffed_odd x (by omega), mul_zero]
  have hodd : ∀ k ∈ Finset.range 13, k ≠ 6 →
      tap c (2 * k + 1) * zeroStuffed x (32 + (2 * j + 1) - (2 * k + 1)) = 0 := fun k hk hne => by
    have hk13 := Finset.mem_range.mp hk
    rw [h (2 * k + 1) (by omega) (by omega) (by omega), zero_mul]
  rw [filter27, sum_range_by_parity _ 13, Finset.sum_eq_zero heven, zero_add,
    Finset.sum_eq_single_of_mem 6 (by decide) hodd, show 32 + (2 * j + 1) - (2 * 6 + 1) = 2 * (10 + j) by omega,
    zeroStuffed_even]

/-! ## One component of the window -/

theorem inComp_of_getElem? {part : Sample → S16} {inp : List Sample} {m : Nat} {v : Sample} (h : inp[m]? = some v) :
    inComp part inp m = (part v).toInt := by
  obtain ⟨hm, hv⟩ := List.getElem?_eq_some_iff.mp h
  rw [inComp, dif_pos hm, hv]

theorem inComp_past_end {part : Sample → S16} {inp : List Sample} {m : Nat} (h : inp[m]? = none) :
    inComp part inp m = 0 := by
  rw [inComp, dif_neg (Nat.not_lt.mpr (List.getElem?_eq_none_iff.mp h))]

theorem inComp_drop (part : Sample → S16) (inp : List Sample) (d m : Nat) :
    inComp part (inp.drop d) m = inComp part inp (d + m) := by
  have hread : (inp.drop d)[m]? = inp[d + m]? := List.getElem?_drop
  cases hv : inp[d + m]? with
  | some v => rw [inComp_of_getElem? hv, inComp_of_getElem? (hread.trans hv)]
  | none => rw [inComp_past_end hv, inComp_past_end (hread.trans hv)]

/-- A window of zeros but for one sample reads as that sample at its index and 0 elsewhere. -/
theorem inComp_impulse {part : Sample → S16} {inp : List Sample} {a : Sample} {p : Nat} (hp : inp[p]? = some a)
    (hzero : ∀ i w, i ≠ p → inp[i]? = some w → part w = 0#16) (m : Nat) :
    inComp part inp m = if m = p then (part a).toInt else 0 := by
  by_cases hm : m = p
  · rw [if_pos hm, hm, inComp_of_getElem? hp]
  · rw [if_neg hm]
    cases hv : inp[m]? with
    | some w => rw [inComp_of_getElem? hv, hzero m w hm hv, BitVec.toInt_zero]
    | none => exact inComp_past_end hv

/-! ## The responses -/

/-- A constant input meets every pair of samples with twice the constant (R110). -/
theorem evenSum_const (c : Vector S16 31) {x : Nat → Int} {d : Int} {j : Nat}
    (h : ∀ m, 3 + j ≤ m → m ≤ 16 + j → x m = d) :
    evenSum c x j = (∑ k ∈ Finset.range 7, 2 * tap c (2 * k)) * d := by
  rw [evenSum_congr c (y := fun _ => d) h, evenSum, Finset.sum_mul]
  refine Finset.sum_congr rfl fun k _ => ?_
  ring

/-- The gain of a constant input under `ROM_SYMMETRIC` (R110). -/
theorem dc_gain {c : Vector S16 31} (h : RomSymmetric c) :
    ∑ k ∈ Finset.range 7, 2 * tap c (2 * k) = ∑ k ∈ Finset.range 14, tap c (2 * k) := by
  have hone := sum_symmetric_pairs (c := fun k => tap c (2 * k)) (x := fun _ => 1) h.even_taps
  simp only [mul_one] at hone
  rw [← hone]
  refine Finset.sum_congr rfl fun k _ => ?_
  ring

/-- An impulse at `p` meets the tap at distance `16 + j - p`, if there is one (R111). -/
theorem evenSum_impulse {c : Vector S16 31} (h : RomSymmetric c) (A : Int) (p j : Nat) :
    evenSum c (fun m => if m = p then A else 0) j =
      if p ≤ 16 + j ∧ 16 + j - p ≤ 13 then tap c (2 * (16 + j - p)) * A else 0 := by
  rw [evenSum_direct h]
  by_cases hp : p ≤ 16 + j ∧ 16 + j - p ≤ 13
  · rw [if_pos hp, Finset.sum_eq_single_of_mem (16 + j - p) (Finset.mem_range.mpr (by omega)) fun k hk hne => ?_]
    · rw [if_pos (by omega)]
    · have hk14 := Finset.mem_range.mp hk
      rw [if_neg (by omega), mul_zero]
  · rw [if_neg hp]
    refine Finset.sum_eq_zero fun k hk => ?_
    have hk14 := Finset.mem_range.mp hk
    rw [if_neg (by omega), mul_zero]

theorem oddProduct_impulse (c : Vector S16 31) (A : Int) (p j : Nat) :
    oddProduct c (fun m => if m = p then A else 0) j = if p = 10 + j then tap c 28 * A else 0 := by
  rw [oddProduct, mul_ite, mul_zero]
  simp only [eq_comm]

theorem srs_zero (r : SrsRound) (m : SrsSat) : srs r m 0 = 0 := by
  cases r <;> cases m <;> decide

/-- The input moved by `d` samples moves the output by `2 * d` (R114). -/
theorem exactOut_shift (c : Vector S16 31) (x : Nat → Int) (d q : Nat) :
    exactOut c (fun m => x (d + m)) q = exactOut c x (2 * d + q) := by
  have hhalf : (2 * d + q) / 2 = d + q / 2 := by omega
  have hsum : evenSum c (fun m => x (d + m)) (q / 2) = evenSum c x (d + q / 2) := Finset.sum_congr rfl fun k hk => by
    have hk7 := Finset.mem_range.mp hk
    have hnew : d + (16 + q / 2 - k) = 16 + (d + q / 2) - k := by omega
    have hold : d + (3 + q / 2 + k) = 3 + (d + q / 2) + k := by omega
    simp only [hnew, hold]
  have hproduct : oddProduct c (fun m => x (d + m)) (q / 2) = oddProduct c x (d + q / 2) := by
    rw [oddProduct, oddProduct, Nat.add_left_comm]
  rw [exactOut, exactOut, Nat.mul_add_mod, hhalf, hsum, hproduct]

end Sys2Proof.Safety

namespace Sys2Proof.Proofs
open Sys2Proof.Machine Sys2Proof.Safety

/-- Settles O29: every sample that the sum or the product of pair `j` names lies in the range. -/
theorem pairDependsOnFourteenSamples : Obligations.PairDependsOnFourteenSamples := by
  intro rom x y j h
  rw [exactOut_even, exactOut_even, exactOut_odd, exactOut_odd]
  exact ⟨evenSum_congr rom h, oddProduct_congr rom h⟩

/-- Settles O30 by the direct form of the exact sum. -/
theorem filteredOutputDirectForm : Obligations.FilteredOutputDirectForm := by
  intro r m rom inp j hsym
  have hdirect : ∀ part : Sample → S16, exactOut rom (inComp part inp) (2 * j) =
      ∑ k ∈ Finset.range 14, tap rom (2 * k) * inComp part inp (16 + j - k) := fun part => by
    rw [exactOut_even, evenSum_direct hsym]
  exact closedOut_of_exact (hdirect _) (hdirect _)

/-- Settles O31: even outputs are the direct form, odd outputs the centre tap. -/
theorem outputIsTheZeroStuffedFilter : Obligations.OutputIsTheZeroStuffedFilter := by
  intro r m rom inp q hsym hhalf hcentre
  have hfilter : ∀ part : Sample → S16, exactOut rom (inComp part inp) q =
      filter27 rom (zeroStuffed (inComp part inp)) q := fun part => by
    obtain ⟨j, rfl | rfl⟩ := Nat.even_or_odd' q
    · rw [exactOut_even, evenSum_direct hsym, filter27_even]
    · rw [exactOut_odd, oddProduct, filter27_odd hhalf, hcentre]
  exact closedOut_of_exact (hfilter _) (hfilter _)

/-- Settles O32: each component of the window is constant where the pair reads it. -/
theorem constantInputResponse : Obligations.ConstantInputResponse := by
  intro r m rom inp d j hconst
  have hx : ∀ part : Sample → S16, ∀ i, 3 + j ≤ i → i ≤ 16 + j → inComp part inp i = (part d).toInt :=
    fun part i hlo hhi => inComp_of_getElem? (hconst i hlo hhi)
  have hodd : closedOut r m rom inp (2 * j + 1) =
      { re := BitVec.ofInt 16 (srs r m (tap rom 28 * d.re.toInt))
        im := BitVec.ofInt 16 (srs r m (tap rom 28 * d.im.toInt)) } := by
    refine closedOut_of_exact ?_ ?_ <;> rw [exactOut_odd, oddProduct, hx _ (10 + j) (by omega) (by omega)]
  refine ⟨closedOut_of_exact ?_ ?_, hodd, dc_gain, ?_⟩
  · rw [exactOut_even, evenSum_const rom (hx _)]
  · rw [exactOut_even, evenSum_const rom (hx _)]
  · rintro rfl hscale rfl
    rw [hodd, hscale]
    cases m <;> decide

/-- Settles O33: each component of the window is an impulse. -/
theorem impulseResponse : Obligations.ImpulseResponse := by
  intro r m rom inp a p j hsym hp hzero
  have hx : ∀ part : Sample → S16, part { re := 0#16, im := 0#16 } = 0#16 →
      inComp part inp = fun i => if i = p then (part a).toInt else 0 := fun part hpart =>
    funext (inComp_impulse hp fun i w hi hw => (hzero i w hi hw).symm ▸ hpart)
  have hre := hx Sample.re rfl
  have him := hx Sample.im rfl
  constructor
  · rw [closedOut, exactOut_even, exactOut_even, hre, him, evenSum_impulse hsym, evenSum_impulse hsym]
    split
    · rfl
    · rw [srs_zero]; rfl
  · rw [closedOut, exactOut_odd, exactOut_odd, hre, him, oddProduct_impulse, oddProduct_impulse]
    split
    · rfl
    · rw [srs_zero]; rfl

/-- Settles O34: dropping `n / 2` samples moves the exact outputs by `n`. -/
theorem windowsContinue : Obligations.WindowsContinue := by
  intro r m rom inp n q hn
  have hshift : ∀ part : Sample → S16, exactOut rom (inComp part (inp.drop (n / 2))) q =
      exactOut rom (inComp part inp) (n + q) := fun part => by
    rw [funext (inComp_drop part inp (n / 2)), exactOut_shift, show 2 * (n / 2) = n by omega]
  exact closedOut_of_exact (hshift _) (hshift _)

end Sys2Proof.Proofs
end

