-- ==== Sys2Proof/Proofs/Arithmetic.lean ====
section
/-!
SUPPORT. The arithmetic of the datapath (42_mac.md R80, R83; 43_output.md R88 to R91; 45_invocation.md R112): sums and
products stay within a lane, the symmetric sum is the direct form, and how far rounding moves a value. Settles O12, O23,
O26, O27 and O28.
-/
namespace Sys2Proof.Machine

/-! ## What a check that passes tells of the elements read -/

theorem mulsymReads_values {s : State} {x : BitVec 5} (h : ∀ e ∈ mulsymReads x, s.isDefined e = true) :
    ∃ (c : Nat → S16) (w : Nat → Sample), (∀ k (hk : k < 7), s.creg[2 * k] = some (c k)) ∧
      ∀ m < 21, (s.sb[(x.toNat + m) % 32]'(Nat.mod_lt _ (by decide))) = some (w m) := by
  simp only [mulsymReads_eq, List.mem_append, List.mem_map, List.mem_range] at h
  refine ⟨fun k => s.creg[cregIndex (2 * k)].getD 0, fun m => s.sb[ring x m].getD default, fun k hk => ?_,
    fun m hm => ?_⟩
  · have hdefined := h _ (.inl ⟨k, hk, rfl⟩)
    rw [Option.getD_of_ne_none (Option.isSome_iff_ne_none.mp hdefined), creg_cregIndex s (by omega)]
  · have hdefined := h _ (.inr ⟨m, List.mem_of_find?_eq_some (mulsymOffsets_rise m hm), rfl⟩)
    rw [Option.getD_of_ne_none (Option.isSome_iff_ne_none.mp hdefined), sb_ring]

theorem mulctrReads_values {s : State} {x : BitVec 5} (h : ∀ e ∈ mulctrReads x, s.isDefined e = true) {l : Nat}
    (hl : l < 8) : ∃ c v, s.creg[28] = some c ∧ s.sb[ring x l] = some v := by
  simp only [mulctrReads_eq, List.mem_append, List.mem_singleton, List.mem_map, List.mem_range] at h
  obtain ⟨c, hc⟩ := Option.isSome_iff_exists.mp (h _ (.inl rfl))
  obtain ⟨v, hv⟩ := Option.isSome_iff_exists.mp (h _ (.inr ⟨l, hl, rfl⟩))
  exact ⟨c, v, hc, hv⟩

/-! ## The model's sums and products stay within a lane (R80) -/

theorem sumDefined_abs_le {n : Nat} {f : Nat → Option Int} {bound a : Int} (hterm : ∀ k v, f k = some v → |v| ≤ bound)
    (h : sumDefined n f = some a) : |a| ≤ n * bound := by
  induction n generalizing a with
  | zero =>
    rw [sumDefined, Option.some.injEq] at h
    simp [← h]
  | succ n ih =>
    rw [sumDefined] at h
    split at h
    · rename_i b v hsum hlast
      rw [Option.some.injEq] at h
      rw [← h, Nat.cast_succ, add_one_mul]
      exact (abs_add_le b v).trans (add_le_add (ih hsum) (hterm n v hlast))
    · cases h

theorem symTerm_abs_le {s : State} {x : BitVec 5} {part : Sample → S16} {l k : Nat} {a : Int}
    (h : symTerm s x part l k = some a) : |a| ≤ 2 ^ 31 := by
  rw [symTerm] at h
  split at h
  · rw [← Option.some.inj h]
    exact abs_symmetric_product_le _ _ _
  · cases h

theorem symSum_abs_le {s : State} {x : BitVec 5} {part : Sample → S16} {l : Nat} {a : Int}
    (h : sumDefined 7 (symTerm s x part l) = some a) : |a| ≤ 7 * 2 ^ 31 :=
  sumDefined_abs_le (fun _ _ => symTerm_abs_le) h

theorem ctrTerm_abs_le {s : State} {x : BitVec 5} {part : Sample → S16} {l : Nat} {a : Int}
    (h : ctrTerm s x part l = some a) : |a| ≤ 2 ^ 30 := by
  rw [ctrTerm] at h
  split at h
  · rw [← Option.some.inj h]
    exact abs_product_le _ _
  · cases h

/-- A lane made of two values within the bound holds those values. -/
theorem accOfInts_holds {re im : Option Int} {v : Acc} (h : accOfInts re im = some v)
    (hre : ∀ a, re = some a → |a| ≤ 7 * 2 ^ 31) (him : ∀ a, im = some a → |a| ≤ 7 * 2 ^ 31) :
    re = some v.re.toInt ∧ im = some v.im.toInt := by
  match re, im, h with
  | some a, some b, h =>
    obtain ⟨v', hv', hva, hvb⟩ := accOfInts_exact (hre a rfl) (him b rfl)
    have hsame : v = v' := Option.some.inj (h.symm.trans hv')
    rw [hsame, hva, hvb]
    exact ⟨rfl, rfl⟩

theorem raise_upc_ne_advanced (s : State) (f : FaultInfo) : (s.raise f).upc ≠ s.upc + 1#5 := by
  rw [raise_upc]
  bv_omega

/-- After a `MULSYM` that advances, a lane holds the model's sum of its window, exactly. -/
theorem exec_mulsym_lane {s t : State} {x : BitVec 5} (h : exec (.mulsym x) s = .next t) (hadv : t.upc = s.upc + 1#5)
    {l : Nat} (hl : l < 8) : ∃ v, t.acc0[l] = some v ∧ sumDefined 7 (symTerm s x Sample.re l) = some v.re.toInt ∧
      sumDefined 7 (symTerm s x Sample.im l) = some v.im.toInt := by
  rcases execMulsym_cases h with ⟨f, rfl⟩ | ⟨-, hdefined, rfl⟩
  · exact absurd hadv (raise_upc_ne_advanced s f)
  · obtain ⟨c, w, hcreg, hsb⟩ := mulsymReads_values hdefined
    obtain ⟨v, hv, -, -⟩ := symLane_exact hcreg hsb hl
    refine ⟨v, by rw [Vector.getElem_ofFn]; exact hv, ?_⟩
    exact accOfInts_holds hv (fun _ => symSum_abs_le) fun _ => symSum_abs_le

/-- After a `MULCTR` that advances, a lane holds the model's product, exactly. -/
theorem exec_mulctr_lane {s t : State} {x : BitVec 5} (h : exec (.mulctr x) s = .next t) (hadv : t.upc = s.upc + 1#5)
    {l : Nat} (hl : l < 8) : ∃ v, t.acc1[l] = some v ∧ ctrTerm s x Sample.re l = some v.re.toInt ∧
      ctrTerm s x Sample.im l = some v.im.toInt := by
  rcases execMulctr_cases h with ⟨f, rfl⟩ | ⟨-, hdefined, rfl⟩
  · exact absurd hadv (raise_upc_ne_advanced s f)
  · obtain ⟨c, w, hc, hw⟩ := mulctrReads_values hdefined hl
    obtain ⟨v, hv, -, -⟩ := ctrLane_exact hc hw
    have hfits : (2 : Int) ^ 30 ≤ 7 * 2 ^ 31 := by decide
    refine ⟨v, by rw [Vector.getElem_ofFn]; exact hv, ?_⟩
    exact accOfInts_holds hv (fun _ ha => (ctrTerm_abs_le ha).trans hfits) fun _ ha => (ctrTerm_abs_le ha).trans hfits

/-! ## How far rounding moves a value (R88, R89, R112) -/

/-- Under every tie rule the rounded value is within one half of the exact quotient. -/
theorem roundShift_error (r : SrsRound) (a : Int) : |2 ^ 15 * roundShift r a - a| ≤ 2 ^ 14 := by
  rw [abs_le]
  by_cases htie : a % 2 ^ 15 = 2 ^ 14
  · obtain ⟨q, rfl⟩ : ∃ q, a = 2 ^ 15 * q + 2 ^ 14 := ⟨a / 2 ^ 15, by omega⟩
    cases r with
    | halfUp => rw [roundShift_halfUp, tie_rounded_up]; omega
    | halfEven => rw [roundShift_halfEven_tie]; split <;> omega
    | halfAway => rw [roundShift_halfAway_tie]; split <;> omega
  · rw [roundShift_off_tie r htie]
    omega

/-- Rounding the scaled value and scaling the rounded one differ by the two rounding errors. -/
theorem roundShift_scaled_error (r : SrsRound) (a k : Int) :
    2 * |roundShift r (k * a) - k * roundShift r a| ≤ |k| + 1 := by
  have hscaled : |k * (2 ^ 15 * roundShift r a - a)| ≤ |k| * 2 ^ 14 := by
    rw [abs_mul]
    exact mul_le_mul_of_nonneg_left (roundShift_error r a) (abs_nonneg k)
  have hbound : 2 ^ 15 * |roundShift r (k * a) - k * roundShift r a| ≤ 2 ^ 14 + |k| * 2 ^ 14 := by
    calc 2 ^ 15 * |roundShift r (k * a) - k * roundShift r a|
        = |(2 ^ 15 * roundShift r (k * a) - k * a) - k * (2 ^ 15 * roundShift r a - a)| := by
          rw [show (2 ^ 15 * roundShift r (k * a) - k * a) - k * (2 ^ 15 * roundShift r a - a) =
            2 ^ 15 * (roundShift r (k * a) - k * roundShift r a) by ring, abs_mul,
            abs_of_pos (by decide : (0 : Int) < 2 ^ 15)]
      _ ≤ |2 ^ 15 * roundShift r (k * a) - k * a| + |k * (2 ^ 15 * roundShift r a - a)| := abs_sub _ _
      _ ≤ 2 ^ 14 + |k| * 2 ^ 14 := add_le_add (roundShift_error r (k * a)) hscaled
  omega

theorem srs_of_int16 {r : SrsRound} (m : SrsSat) {a : Int} (hlo : -32768 ≤ roundShift r a)
    (hhi : roundShift r a ≤ 32767) : srs r m a = roundShift r a := by
  rw [srs, narrow16_of_int16 m hlo hhi]

end Sys2Proof.Machine

namespace Sys2Proof.Safety
open Sys2Proof.Machine

/-- Scaling the input scales the exact outputs (R112). -/
theorem exactOut_scaled (rom : Vector S16 31) (x : Nat → Int) (k : Int) (q : Nat) :
    exactOut rom (fun m => k * x m) q = k * exactOut rom x q := by
  obtain ⟨j, rfl | rfl⟩ := Nat.even_or_odd' q
  · rw [exactOut_even, exactOut_even, evenSum, evenSum, Finset.mul_sum]
    refine Finset.sum_congr rfl fun n _ => ?_
    ring
  · rw [exactOut_odd, exactOut_odd, oddProduct, oddProduct]
    ring

/-- `LDC` of a symmetric table leaves a symmetric register (R83). -/
theorem loadedCreg_symmetric {rom : Vector S16 31} (h : RomSymmetric rom) {k : Nat} (hk : k < 7) :
    (loadedCreg rom)[2 * k] = (loadedCreg rom)[26 - 2 * k] := by
  have htap := h (2 * k) (by omega)
  rw [tap_of_lt rom (by omega), tap_of_lt rom (by omega), BitVec.toInt_inj] at htap
  rw [loadedCreg_coefficient rom (by omega), loadedCreg_coefficient rom (by omega), htap]

end Sys2Proof.Safety

namespace Sys2Proof.Proofs
open Sys2Proof.Machine Sys2Proof.Safety

/-- Settles O12: the sum over the pairs folds by the register's symmetry, which `LDC` takes over from the table. -/
theorem mulsymEqualsDirectForm : Obligations.MulsymEqualsDirectForm := by
  refine ⟨fun s x c w hu hcreg hsym hsb => ?_, fun s hu hrom => ⟨_, exec_ldc hu, fun k hk => ?_⟩⟩
  · have hcoefficients : ∀ k (h : k < 7), s.creg[2 * k] = some (c (2 * k)) := fun k hk => hcreg (2 * k) (by omega)
    have hfold : ∀ (part : Sample → S16) (l : Nat),
        ∑ k ∈ Finset.range 7, (c (2 * k)).toInt * ((part (w (l + (13 - k)))).toInt + (part (w (l + k))).toInt) =
          ∑ k ∈ Finset.range 14, (c (2 * k)).toInt * (part (w (l + 13 - k))).toInt := fun part l => by
      rw [sum_symmetric_pairs (c := fun k => (c (2 * k)).toInt) (x := fun m => (part (w (l + m))).toInt) fun k hk => by
        rw [hsym k hk, show 26 - 2 * k = 2 * (13 - k) by omega]]
      refine Finset.sum_congr rfl fun k hk => ?_
      have hk14 := Finset.mem_range.mp hk
      rw [Nat.add_sub_assoc (by omega)]
    have hdefined : ∀ e ∈ mulsymReads x, s.isDefined e = true :=
      mulsymReads_defined (fun k hk => by simp [hcoefficients k hk]) (fun m hm => by simp [hsb m hm])
    refine ⟨_, exec_mulsym_defined hu hdefined, fun l hl => ?_⟩
    rw [Vector.getElem_ofFn, ← hfold Sample.re, ← hfold Sample.im]
    exact symLane_exact (c := fun k => c (2 * k)) hcoefficients hsb hl
  · exact loadedCreg_symmetric hrom hk

/-- Settles O23: each term is within its bound, so each sum is, and the lanes hold what was summed. -/
theorem macFitsTheAccumulator : Obligations.MacFitsTheAccumulator := by
  refine ⟨fun c v w => ⟨abs_symmetric_sum_le c v w, abs_product_le (c 0) (v 0)⟩, fun a ha => ⟨rfl, ?_⟩,
    fun s t x => ⟨fun part l a => ⟨symSum_abs_le, ctrTerm_abs_le⟩, fun hexec hadv l hl => ?_,
      fun hexec hadv l hl => ?_⟩⟩
  · rw [abs_le] at ha
    exact ofInt48_toInt (by omega)
  · obtain ⟨v, hv, hre, him⟩ := exec_mulsym_lane hexec hadv hl
    exact ⟨v, hv, hre, symSum_abs_le hre, him, symSum_abs_le him⟩
  · obtain ⟨v, hv, hre, him⟩ := exec_mulctr_lane hexec hadv hl
    exact ⟨v, hv, hre, ctrTerm_abs_le hre, him, ctrTerm_abs_le him⟩

/-- Settles O26: each of the values is computed. -/
theorem srsTable : Obligations.SrsTable := by
  unfold Obligations.SrsTable
  decide

/-- Settles O27: `MULCTR` leaves the exact product where `SRSZIP` reads it, and the rounded quotient of `32767 * v` by
`2 ^ 15` is `v` less `v / 2 ^ 15` rounded. -/
theorem passThroughLaw : Obligations.PassThroughLaw := by
  refine ⟨fun s x w hu hround hsat hcentre hlanes => ?_, fun v => ?_⟩
  · have hctr : ∀ e ∈ mulctrReads x, s.isDefined e = true :=
      mulctrReads_defined (by simp [hcentre]) fun l hl => by simp [(hlanes l hl).1]
    have hlane : ∀ l (h : l < 8), ∃ a, ctrLane s x l = some a ∧ a.re.toInt = 32767 * (w l).re.toInt ∧
        a.im.toInt = 32767 * (w l).im.toInt := fun l hl => ctrLane_exact hcentre (hlanes l hl).1
    refine ⟨_, exec_mulctr_defined (by bv_omega) hctr, _,
      exec_srszip_defined (by simp only; bv_omega) (lanes_defined fun l => ?_), fun l hl => ?_⟩
    · obtain ⟨a, ha, -, -⟩ := hlane l.val l.isLt
      simp [ha, Option.isSome_iff_ne_none, (hlanes l.val l.isLt).2]
    · obtain ⟨a, ha, hre, him⟩ := hlane l hl
      refine ⟨srsLane s.srsRound s.srsSat a, ?_, ?_, ?_⟩
      · rw [getElem_ofFn_append (zipLane _), zipLane_odd _ hl, Vector.getElem_ofFn, ha, Option.map_some]
      · rw [srsLane_re_toInt, hre, hround, hsat]
      · rw [srsLane_im_toInt, him, hround, hsat]
  · have hlo := v.le_toInt
    have hhi := v.toInt_lt
    rw [srsDefaultFormula]
    omega

/-- Settles O28: the exact outputs are linear in the input, and within `int16` the shift is the rounding alone. -/
theorem outputsScaleWithinTolerance : Obligations.OutputsScaleWithinTolerance := by
  refine ⟨exactOut_scaled, fun r m a k => ⟨roundShift_error r a, fun hlo hhi hlo' hhi' => ?_⟩⟩
  rw [srs_of_int16 m hlo hhi, srs_of_int16 m hlo' hhi']
  exact roundShift_scaled_error r a k

end Sys2Proof.Proofs
end

