-- ==== Sys2Proof/Proofs/ByteView.lean ====
section
/-!
SUPPORT. The byte view of the buffers (20_memory.md R50, R51): a word from its bytes, the bytes of a window by index,
the cells of `OUT`, and the bytes of the table. Settles O55.
-/
namespace Sys2Proof.Machine

/-! ## A word and its bytes -/

theorem byteOf_eq {n : Nat} (w : BitVec n) (k : Nat) : byteOf w k = BitVec.ofNat 8 (w.toNat / 2 ^ (8 * k)) :=
  BitVec.eq_of_toNat_eq (by
    rw [byteOf, BitVec.extractLsb'_toNat, BitVec.toNat_ofNat, Nat.shiftRight_eq_div_pow])

theorem packSample_toNat (v : Sample) : (packSample v).toNat = v.re.toNat + 2 ^ 16 * v.im.toNat := by
  rw [packSample, BitVec.toNat_append, ← Nat.shiftLeft_add_eq_or_of_lt v.re.isLt, Nat.shiftLeft_eq]
  omega

theorem toNat_append_byte {n : Nat} (w : BitVec n) (b : Byte) : (w ++ b).toNat = 2 ^ 8 * w.toNat + b.toNat := by
  rw [BitVec.toNat_append, ← Nat.shiftLeft_add_eq_or_of_lt b.isLt, Nat.shiftLeft_eq, Nat.mul_comm]

theorem byteOf_toNat {n : Nat} (w : BitVec n) (k : Nat) : (byteOf w k).toNat = w.toNat / 2 ^ (8 * k) % 2 ^ 8 := by
  rw [byteOf, BitVec.extractLsb'_toNat, Nat.shiftRight_eq_div_pow]

/-- A 32-bit word is its four bytes, the lowest last. -/
theorem append_bytes (w : BitVec 32) : byteOf w 3 ++ byteOf w 2 ++ byteOf w 1 ++ byteOf w 0 = w :=
  BitVec.eq_of_toNat_eq (by
    simp only [toNat_append_byte, byteOf_toNat]
    omega)

theorem sampleOfBytes_bytes (v : Sample) :
    sampleOfBytes (byteOf (packSample v) 0) (byteOf (packSample v) 1) (byteOf (packSample v) 2)
      (byteOf (packSample v) 3) = v := by
  rw [sampleOfBytes, append_bytes, unpackSample_packSample]

/-! ## The bytes of a window -/

theorem windowOfBytes_bytesOfWindow (ws : List Sample) : windowOfBytes (bytesOfWindow ws) = some ws := by
  induction ws with
  | nil => rfl
  | cons v vs ih => rw [bytesOfWindow, windowOfBytes, ih, Option.map_some, sampleOfBytes_bytes]

theorem bytesOfWindow_length (ws : List Sample) : (bytesOfWindow ws).length = 4 * ws.length := by
  induction ws with
  | nil => rfl
  | cons v vs ih => rw [bytesOfWindow, List.length_cons, List.length_cons, List.length_cons, List.length_cons, ih,
      List.length_cons, Nat.mul_succ]

/-- Bytes that make a window are four for each of its samples. -/
theorem length_of_windowOfBytes {bytes : List Byte} {ws : List Sample} (h : windowOfBytes bytes = some ws) :
    bytes.length = 4 * ws.length := by
  induction bytes using windowOfBytes.induct generalizing ws with
  | case1 =>
    rw [windowOfBytes, Option.some.injEq] at h
    rw [← h]
    rfl
  | case2 b0 b1 b2 b3 rest ih =>
    rw [windowOfBytes, Option.map_eq_some_iff] at h
    obtain ⟨vs, hvs, rfl⟩ := h
    simp only [List.length_cons, ih hvs]
    omega
  | case3 bytes hnil hcons =>
    rw [windowOfBytes.eq_3 bytes hnil hcons] at h
    cases h

theorem bytesOfWindow_cons_low (v : Sample) (vs : List Sample) {k : Nat} (h : k < 4) :
    (bytesOfWindow (v :: vs))[k]? = some (byteOf (packSample v) k) := by
  match k, h with
  | 0, _ | 1, _ | 2, _ | 3, _ => rfl

theorem bytesOfWindow_cons_high (v : Sample) (vs : List Sample) (k : Nat) :
    (bytesOfWindow (v :: vs))[k + 4]? = (bytesOfWindow vs)[k]? := rfl

/-- Byte `k` of a window is byte `k mod 4` of sample `k / 4`. -/
theorem bytesOfWindow_getElem? (ws : List Sample) (k : Nat) :
    (bytesOfWindow ws)[k]? = ws[k / 4]?.map fun v => byteOf (packSample v) (k % 4) := by
  induction ws generalizing k with
  | nil => rfl
  | cons v vs ih =>
    by_cases hk : k < 4
    · rw [bytesOfWindow_cons_low v vs hk, Nat.div_eq_of_lt hk, Nat.mod_eq_of_lt hk, List.getElem?_cons_zero,
        Option.map_some]
    · obtain ⟨n, rfl⟩ := Nat.exists_eq_add_of_le' (Nat.not_lt.mp hk)
      rw [bytesOfWindow_cons_high, ih, Nat.add_div_right n (by decide), Nat.add_mod_right, List.getElem?_cons_succ]

/-! ## The cells of `OUT` and the bytes of the table -/

theorem cells_cons (i : Nat) (v : Sample) (m : Memory) : Memory.cells ((i, v) :: m) =
    (List.range 4).map (fun k => (4 * i + k, byteOf (packSample v) k)) ++ m.cells := rfl

/-- The four cells of a listed sample are its bytes at the addresses from `4 * i` on. -/
theorem mem_cells_cons (i : Nat) (v : Sample) (m : Memory) (a : Nat) (b : Byte) :
    (a, b) ∈ Memory.cells ((i, v) :: m) ↔ (a / 4 = i ∧ b = byteOf (packSample v) (a % 4)) ∨ (a, b) ∈ m.cells := by
  rw [cells_cons, List.mem_append, List.mem_map]
  refine or_congr_left ⟨?_, ?_⟩
  · rintro ⟨k, hk, hcell⟩
    have hk4 := List.mem_range.mp hk
    obtain ⟨rfl, rfl⟩ := Prod.mk.inj hcell
    have hoffset : (4 * i + k) % 4 = k := by omega
    exact ⟨by omega, by rw [hoffset]⟩
  · rintro ⟨rfl, rfl⟩
    exact ⟨a % 4, List.mem_range.mpr (Nat.mod_lt a (by decide)), by rw [Nat.div_add_mod]⟩

theorem mem_cells (m : Memory) (a : Nat) (b : Byte) :
    (a, b) ∈ m.cells ↔ ∃ v, (a / 4, v) ∈ m ∧ b = byteOf (packSample v) (a % 4) := by
  induction m with
  | nil => simp [Memory.cells]
  | cons p m ih =>
    obtain ⟨i, v⟩ := p
    simp only [mem_cells_cons, ih, List.mem_cons, Prod.mk.injEq, or_and_right, exists_or, and_assoc, exists_and_left,
      exists_eq_left]

theorem coeffByte_eq (rom : Vector S16 31) (k : Nat) :
    coeffByte rom k = if h : k < 62 then some (byteOf (rom[k / 2]'(by omega)) (k % 2)) else none := by
  rw [coeffByte]
  split
  · rw [Vector.getElem?_eq_getElem (by omega), Option.map_some]
  · rw [Vector.getElem?_eq_none (by omega), Option.map_none]

end Sys2Proof.Machine

namespace Sys2Proof.Proofs
open Sys2Proof.Machine

/-- Settles O55: byte `k` of a word is its quotient by `2 ^ (8 * k)`, and four bytes are the word again. -/
theorem byteViewRoundTrips : Obligations.ByteViewRoundTrips := by
  refine ⟨fun v => ⟨packSample_toNat v, unpackSample_packSample v⟩,
    fun ws => ⟨windowOfBytes_bytesOfWindow ws, bytesOfWindow_length ws, fun k hk => ?_⟩, fun m a b => ?_,
    fun rom k => ?_⟩
  · rw [bytesOfWindow_getElem?, List.getElem?_eq_getElem (by omega), Option.map_some, byteOf_eq]
  · simp only [mem_cells, byteOf_eq]
  · simp only [coeffByte_eq, byteOf_eq]

end Sys2Proof.Proofs
end

