-- ==== Sys2Proof/Proofs/HostPort.lean ====
section
/-!
SUPPORT. The host's moves (60_exceptions.md R126, R129, R131; 70_reset_and_hazards.md R132, R133): what filling `IN`,
reading `OUT`, START and reset answer, which host move can wake the engine, what no step writes, and what a platform's
events and instances do. Settles O42, O44 to O47, O49 to O52, O54, O56 and O57.
-/
namespace Sys2Proof.Machine

/-! ## Filling the window (R51, R126) -/

theorem fillIn_busy {s : State} (hb : s.status.busy = true) (w : List Sample) :
    hostMove (.fillIn w) s = .refused .fillWhileBusy :=
  if_pos hb

theorem fillIn_idle {s : State} (hb : s.status.busy = false) {w : List Sample} (hw : w.length < 2 ^ 32) :
    hostMove (.fillIn w) s = .next { s with inp := w } := by
  rw [hostMove, hostFillIn, if_neg (by simp [hb]), if_neg (Nat.not_le.mpr hw)]

theorem fillIn_tooLong {s : State} (hb : s.status.busy = false) {w : List Sample} (hw : 2 ^ 32 ≤ w.length) :
    hostMove (.fillIn w) s = .refused .windowTooLong := by
  rw [hostMove, hostFillIn, if_neg (by simp [hb]), if_pos hw]

theorem hostFillIn_cases {w : List Sample} {s t : State} (h : hostFillIn w s = .next t) : t = { s with inp := w } := by
  rw [hostFillIn] at h
  split_ifs at h
  exact (next_inj.mp h).symm

/-- A fill with the window's bytes is the fill with its samples (R51). -/
theorem fillInBytes_bytesOfWindow (w : List Sample) (s : State) :
    hostMove (.fillInBytes (bytesOfWindow w)) s = hostMove (.fillIn w) s := by
  show hostFillInBytes (bytesOfWindow w) s = hostFillIn w s
  rw [hostFillInBytes, windowOfBytes_bytesOfWindow]

theorem fillInBytes_partial {bytes : List Byte} (h : bytes.length % 4 ≠ 0) (s : State) :
    hostMove (.fillInBytes bytes) s = .refused .partialSample := by
  have hnone : windowOfBytes bytes = none := Option.eq_none_iff_forall_ne_some.mpr fun ws hws => by
    have hlength := length_of_windowOfBytes hws
    omega
  rw [hostMove, hostFillInBytes, hnone]

/-! ## Reading `OUT` (R61, R126) -/

theorem hostReadOutAs_outside (view : Sample → Reply) {i : Nat} {s : State} (h : s.nout.toNat ≤ i) :
    hostReadOutAs view i s = .fault .outIndexOutside :=
  if_pos h

theorem hostReadOutAs_defined (view : Sample → Reply) {i : Nat} {s : State} {v : Sample} (h : i < s.nout.toNat)
    (hv : s.outDefined i = some v) : hostReadOutAs view i s = .next { s with reply := some (view v) } := by
  rw [hostReadOutAs, if_neg (Nat.not_le.mpr h), hv]

theorem hostReadOutAs_free (view : Sample → Reply) {i : Nat} {s : State} (h : i < s.nout.toNat)
    (hv : s.outDefined i = none) : hostReadOutAs view i s = .next { s with
      reply := some (view (Config.freeSample s.freeStream s.freeCount))
      freeCount := s.freeCount + 1 } := by
  rw [hostReadOutAs, if_neg (Nat.not_le.mpr h), hv]

theorem hostReadOutAs_cases {view : Sample → Reply} {i : Nat} {s t : State} (h : hostReadOutAs view i s = .next t) :
    ∃ r n, t = { s with reply := r, freeCount := n } := by
  rw [hostReadOutAs] at h
  split at h
  · cases h
  · split at h
    · exact ⟨_, s.freeCount, (next_inj.mp h).symm⟩
    · exact ⟨_, _, (next_inj.mp h).symm⟩

theorem outDefined_seen {s : State} (hdone : s.status.done = true) (hseen : s.doneSeen = true) (i : Nat) :
    s.outDefined i = s.out.read i := by
  rw [State.outDefined, hdone, hseen]
  rfl

theorem outDefined_none {s : State} {i : Nat}
    (h : s.status.done = false ∨ s.doneSeen = false ∨ s.out.read i = none) : s.outDefined i = none := by
  rcases h with h | h | h
  · simp [State.outDefined, h]
  · simp [State.outDefined, h]
  · rw [State.outDefined, h, ite_self]

/-! ## Which host moves write the status -/

/-- Of the host's moves only START and reset write the status. -/
theorem hostMove_status_cases {a : HostAction} {s t : State} (h : hostMove a s = .next t) :
    t.status = s.status ∨ (∃ v, a = .writeReg 0 v ∧ v.getLsbD 0 = true ∧ hostStart s = .next t) ∨ a = .reset := by
  have same : hostMove a s = .next s → t.status = s.status := fun hs => by rw [next_inj.mp (hs.symm.trans h)]
  cases a with
  | writeReg r v =>
    match r with
    | 0 =>
      cases hv : v.getLsbD 0 with
      | false => exact .inl (same (writeReg_ctrl_clear hv s))
      | true => exact .inr (.inl ⟨v, rfl, hv, (writeReg_ctrl_set hv s).symm.trans h⟩)
    | 1 => exact .inl (same (writeReg_status s v))
    | 2 =>
      cases hb : s.status.busy with
      | true => exact .inl (same (writeReg_nout_busy hb v))
      | false => rw [← next_inj.mp ((writeReg_nout_idle hb v).symm.trans h)]; exact .inl rfl
    | k + 3 => exact .inl (same rfl)
  | readReg r => rw [← next_inj.mp h]; exact .inl rfl
  | fillIn w => rw [hostFillIn_cases h]; exact .inl rfl
  | fillInBytes b =>
    rw [hostMove, hostFillInBytes] at h
    split at h
    · rw [hostFillIn_cases h]; exact .inl rfl
    · cases h
  | readOut i => obtain ⟨r, n, rfl⟩ := hostReadOutAs_cases h; exact .inl rfl
  | readOutByte k => obtain ⟨r, n, rfl⟩ := hostReadOutAs_cases h; exact .inl rfl
  | reset => exact .inr (.inr rfl)

/-- No host move but START and reset writes the fault record, and a faulted block ignores START. -/
theorem hostMove_faulted_keeps_record {a : HostAction} {s t : State} (hf : s.status.fault = true) (ha : a ≠ .reset)
    (h : hostMove a s = .next t) : t.faultInfo = s.faultInfo := by
  rcases hostMove_cases h with ⟨_, _, _, rfl, -⟩ | ⟨-, _, rfl⟩ | ⟨-, _, -, rfl⟩ | hstart | ⟨hreset, -⟩
  · rfl
  · rfl
  · rfl
  · obtain ⟨hb, -⟩ := hostStart_cases hstart
    rw [hostStart_faulted hb hf, next_inj] at hstart
    rw [hstart]
  · exact absurd hreset ha

/-! ## An accepted START (R99, R113) -/

/-- What an accepted START leaves depends only on what it keeps. -/
theorem begin_congr {s s' : State} (hfault : s.status.fault = s'.status.fault)
    (hfcode : s.status.fcode = s'.status.fcode) (hnout : s.nout = s'.nout) (hinp : s.inp = s'.inp)
    (hrom : s.coeffRom = s'.coeffRom) (huprog : s.uprog = s'.uprog) (hround : s.srsRound = s'.srsRound)
    (hsat : s.srsSat = s'.srsSat) (hinfo : s.faultInfo = s'.faultInfo) (hturns : s.turns = s'.turns)
    (hreply : s.reply = s'.reply) (hcount : s.freeCount = s'.freeCount) (hstream : s.freeStream = s'.freeStream) :
    s.begin = s'.begin := by
  simp only [State.begin, statusStarted, hfault, hfcode, hnout, hinp, hrom, huprog, hround, hsat, hinfo, hturns, hreply,
    hcount, hstream]

theorem start_legal {s t : State} (hf : s.status.fault = false) (hn : legalNout s.nout = true)
    (h : hostStart s = .next t) : t = s.begin := by
  obtain ⟨hb, -⟩ := hostStart_cases h
  exact (next_inj.mp ((hostStart_accepted hb hf hn).symm.trans h)).symm

/-! ## What no step writes (R40, R41, R64) -/

/-- The coefficient table, the microprogram and the parameters of `t` are those of `s`. -/
def SameConstants (s t : State) : Prop :=
  t.coeffRom = s.coeffRom ∧ t.uprog = s.uprog ∧ t.srsRound = s.srsRound ∧ t.srsSat = s.srsSat

theorem hostMove_same_constants {a : HostAction} {s t : State} (h : hostMove a s = .next t) : SameConstants s t := by
  rcases hostMove_cases h with ⟨_, _, _, rfl, -⟩ | ⟨-, _, rfl⟩ | ⟨-, _, -, rfl⟩ | hstart | ⟨-, rfl⟩
  · exact ⟨rfl, rfl, rfl, rfl⟩
  · exact ⟨rfl, rfl, rfl, rfl⟩
  · exact ⟨rfl, rfl, rfl, rfl⟩
  · rcases hostStart_cases hstart with ⟨-, ⟨-, rfl⟩ | ⟨-, -, rfl⟩ | ⟨-, -, rfl⟩⟩ <;> exact ⟨rfl, rfl, rfl, rfl⟩
  · exact ⟨rfl, rfl, rfl, rfl⟩

theorem engineStep_same_constants {s t : State} (h : engineStep s = .next t) : SameConstants s t := by
  obtain ⟨-, -, ⟨w, -, rfl⟩ | ⟨i, -, hexec⟩⟩ := engineStep_cases h
  · exact ⟨rfl, rfl, rfl, rfl⟩
  · obtain ⟨-, -, -, -, -, -, -, -, -, -, hrom, huprog, hround, hsat, -⟩ :=
      Proofs.onlyItsWriterWritesAnElement i s t hexec
    exact ⟨hrom, huprog, hround, hsat⟩

/-! ## A platform's events (R58, R133) -/

theorem platformEvent_reset {p : PlatformMap} {e : PlatformEvent} (h : e ∈ p.resetBy) (s : State) :
    platformEvent p e s = hostMove .reset s := by
  simp only [platformEvent, platformMove, if_pos h]

theorem platformEvent_signal {p : PlatformMap} {n : Nat} (h : .signal n ∉ p.resetBy) (s : State) :
    platformEvent p (.signal n) s = .next s := by
  simp only [platformEvent, platformMove, if_neg h]

theorem platformEvent_read {p : PlatformMap} {a r : Nat} (h : .read a ∉ p.resetBy) (hr : registerAt p a = some r)
    (s : State) : platformEvent p (.read a) s = hostMove (.readReg r) s := by
  simp only [platformEvent, platformMove, if_neg h, hr, Option.map_some]

theorem platformEvent_write {p : PlatformMap} {a r : Nat} {v : RegWord} (h : .write a v ∉ p.resetBy)
    (hr : registerAt p a = some r) (s : State) : platformEvent p (.write a v) s = hostMove (.writeReg r v) s := by
  simp only [platformEvent, platformMove, if_neg h, hr, Option.map_some]

theorem platformEvent_read_elsewhere {p : PlatformMap} {a : Nat} (h : .read a ∉ p.resetBy)
    (hr : registerAt p a = none) (s : State) : platformEvent p (.read a) s = .next s := by
  simp only [platformEvent, platformMove, if_neg h, hr, Option.map_none]

theorem platformEvent_write_elsewhere {p : PlatformMap} {a : Nat} {v : RegWord} (h : .write a v ∉ p.resetBy)
    (hr : registerAt p a = none) (s : State) : platformEvent p (.write a v) s = .next s := by
  simp only [platformEvent, platformMove, if_neg h, hr, Option.map_none]

theorem registerAt_registers {p : PlatformMap} (h : p.RegistersApart) {a r : Nat}
    (hmem : (a, r) ∈ [(p.ctrlAddr, 0), (p.statusAddr, 1), (p.noutAddr, 2)]) : registerAt p a = some r := by
  obtain ⟨hcs, hcn, hsn⟩ := h
  simp only [List.mem_cons, Prod.mk.injEq, List.not_mem_nil, or_false] at hmem
  rcases hmem with ⟨rfl, rfl⟩ | ⟨rfl, rfl⟩ | ⟨rfl, rfl⟩
  · rw [registerAt, if_pos rfl]
  · rw [registerAt, if_neg hcs.symm, if_pos rfl]
  · rw [registerAt, if_neg hcn.symm, if_neg hsn.symm, if_pos rfl]

theorem registerAt_elsewhere {p : PlatformMap} {a : Nat} (h : a ∉ [p.ctrlAddr, p.statusAddr, p.noutAddr]) :
    registerAt p a = none := by
  simp only [List.mem_cons, List.not_mem_nil, or_false, not_or] at h
  obtain ⟨hctrl, hstatus, hnout⟩ := h
  rw [registerAt, if_neg hctrl, if_neg hstatus, if_neg hnout]

/-- A step at place `k` of a platform is a step of the block there, put back in its place. -/
theorem stepAt_next {p q : Platform} {k : Nat} (h : p.stepAt k = some (.next q)) :
    ∃ s t, p.instances[k]? = some s ∧ step s = .next t ∧ q.instances = p.instances.set k t := by
  rw [Platform.stepAt, Option.map_eq_some_iff] at h
  obtain ⟨s, hs, h⟩ := h
  split at h
  · rename_i t ht
    rw [Host.Outcome.next.injEq] at h
    exact ⟨s, t, hs, ht, h ▸ rfl⟩
  · cases h
  · cases h

end Sys2Proof.Machine

namespace Sys2Proof.Proofs
open Sys2Proof.Machine Sys2Proof.Safety

/-- Settles O42: both STARTs are accepted, and what they leave depends on nothing but what the premises equate. -/
theorem startForgetsHistory : Obligations.StartForgetsHistory := by
  intro s s' t t' hf hf' hfcode hnout hinp hrom huprog hround hsat hinfo hturns hreply hcount hstream hn h h'
  rw [writeReg_ctrl_set (by decide)] at h h'
  rw [start_legal hf hn h, start_legal hf' (hnout ▸ hn) h']
  exact begin_congr (hf.trans hf'.symm) hfcode hnout hinp hrom huprog hround hsat hinfo hturns hreply hcount hstream

/-- Settles O44 by the layout of the status word. -/
theorem statusBits : Obligations.StatusBits := fun s => statusWord_toNat s.status

/-- Settles O45: the read's answer writes `reply` and `doneSeen` alone. -/
theorem hostReadsHaveNoSideEffect : Obligations.HostReadsHaveNoSideEffect := fun _ _ => ⟨_, rfl, rfl, rfl⟩

/-- Settles O46: a sample's read and a byte's read are one read with two views. -/
theorem outReadsAfterDone : Obligations.OutReadsAfterDone := by
  rintro s i k rfl
  refine ⟨fun hout => ⟨hostReadOutAs_outside _ hout, hostReadOutAs_outside _ hout⟩,
    fun v hin hdone hseen hv => ?_, fun hin hfree => ?_⟩
  · have hdefined : s.outDefined (k / 4) = some v := (outDefined_seen hdone hseen _).trans hv
    rw [← packSample_toNat, ← byteOf_eq]
    exact ⟨hostReadOutAs_defined _ hin hdefined, hostReadOutAs_defined _ hin hdefined⟩
  · have hnone : s.outDefined (k / 4) = none := outDefined_none hfree
    exact ⟨⟨_, hostReadOutAs_free _ hin hnone⟩, _, hostReadOutAs_free _ hin hnone⟩

/-- Settles O47, case by case; a fill by bytes is the fill by samples. -/
theorem hostFillsTheWindow : Obligations.HostFillsTheWindow := fun s w =>
  ⟨fun hb hw => fillIn_idle hb hw, fun hb => fillIn_busy hb w, fun hb hw => fillIn_tooLong hb hw,
    fillInBytes_bytesOfWindow w s, fun _ hbytes => fillInBytes_partial hbytes s⟩

/-- Settles O49: the engine of a faulted block has no step, and of the host's moves reset alone writes the record. -/
theorem faultRecordIsKept : Obligations.FaultRecordIsKept := by
  intro s t hf hstep
  refine ⟨fun rest hs => ?_, fun hturn => ?_⟩
  · rw [← next_inj.mp ((step_reset hs).symm.trans hstep)]
    rfl
  · rcases step_cases hstep with ⟨rest, he⟩ | ⟨a, rest, hs, hm⟩
    · cases (engineStep_faulted (s := { s with turns := rest }) hf).symm.trans he
    · have ha : a ≠ .reset := fun hreset => hturn rest (hreset ▸ hs)
      exact hostMove_faulted_keeps_record (s := { s with turns := rest }) hf ha hm

/-- Settles O50: the engine of an idle block has no step, reset leaves BUSY clear, and of the other host moves only
START writes the status. -/
theorem onlyStartWakesTheEngine : Obligations.OnlyStartWakesTheEngine := by
  intro s t hb hstep hbt
  rcases step_cases hstep with ⟨rest, he⟩ | ⟨a, rest, hs, hm⟩
  · exact absurd he (engineStep_idle (s := { s with turns := rest }) hb)
  · rcases hostMove_status_cases hm with hsame | ⟨v, rfl, hv, hstart⟩ | rfl
    · simp [hsame, hb] at hbt
    · rcases hostStart_cases hstart with ⟨-, ⟨-, rfl⟩ | ⟨hf, hn, rfl⟩ | ⟨-, -, rfl⟩⟩
      · simp [hb] at hbt
      · obtain ⟨hpos, hmod⟩ := (legalNout_iff _).mp hn
        exact ⟨v, rest, hs, hv, hf, hpos, hmod, rfl, rfl⟩
      · cases hbt
    · rw [← next_inj.mp hm] at hbt
      cases hbt

/-- Settles O51: the fields of `State.applyReset`, one by one. -/
theorem resetLeavesTheResetColumn : Obligations.ResetLeavesTheResetColumn := fun s =>
  ⟨s.applyReset, rfl, reset_readReg 1, rfl, rfl, rfl, rfl, rfl, fun i hi => by simp, fun l hl => by simp, rfl, rfl, rfl,
    rfl, fun _ => rfl⟩

/-- Settles O52: reset comes first in the map's reading of an event, then the register at its address. -/
theorem platformEventsReachTheBlock : Obligations.PlatformEventsReachTheBlock := by
  intro p s hapart
  refine ⟨fun e he => platformEvent_reset he s, fun a r hreg => ?_, fun n hn => platformEvent_signal hn s,
    fun a ha => ?_⟩
  · have hr := registerAt_registers hapart hreg
    exact ⟨fun h => platformEvent_read h hr s, fun v h => platformEvent_write h hr s⟩
  · have hr := registerAt_elsewhere ha
    exact ⟨fun h => platformEvent_read_elsewhere h hr s, fun v h => platformEvent_write_elsewhere h hr s⟩

/-- Settles O54: the fields of `State.reset`, one by one. -/
theorem resetState : Obligations.ResetState :=
  ⟨rfl, rfl, rfl, rfl, rfl, rfl, fun i hi => by simp [State.reset], fun l hl => by simp [State.reset], rfl, rfl⟩

/-- Settles O56: neither the engine's step nor a host move writes them, and taking a turn off the list does not. -/
theorem constantsNeverChange : Obligations.ConstantsNeverChange := by
  intro s t hstep
  rcases step_cases hstep with ⟨rest, he⟩ | ⟨a, rest, -, hm⟩
  · exact engineStep_same_constants (s := { s with turns := rest }) he
  · exact hostMove_same_constants (s := { s with turns := rest }) hm

/-- Settles O57: the step puts one block back and leaves the others where they are. -/
theorem instancesAreIndependent : Obligations.InstancesAreIndependent := by
  intro p q k h
  obtain ⟨s, t, hs, hstep, hq⟩ := stepAt_next h
  have hk : k < p.instances.length := (List.getElem?_eq_some_iff.mp hs).1
  rw [hq]
  exact ⟨List.length_set, fun j hj => List.getElem?_set_ne hj.symm, s, t, hs, List.getElem?_set_self hk, hstep⟩

end Sys2Proof.Proofs
end

