-- ==== Sys2Proof/Proofs/Invariant.lean ====
section
/-!
SUPPORT. The invariant of every step (10_state.md R28, R34; 20_memory.md R45, R47, R53; 60_exceptions.md R116): each
update of the state keeps it, so each micro-op, each host move and each step does. Settles O58 and O59.
-/
namespace Sys2Proof.Safety
open Sys2Proof.Machine

section
variable {s : State}

/-! ## What the engine's updates keep -/

theorem Inv.not_done_of_busy (h : Inv s) (hb : s.status.busy = true) : s.status.done = false := by
  obtain ⟨hbd, -, -⟩ := h.exclusive
  simpa [hb] using hbd

/-- A fault of a block that has not completed. -/
theorem Inv.raise (h : Inv s) (hd : s.status.done = false) (f : FaultInfo) : Inv (s.raise f) :=
  { h with
    exclusive := ⟨fun hbusy => absurd hbusy.1 (by simp), fun hbusy => absurd hbusy.1 (by simp), fun hdone => by
      simp [hd] at hdone⟩
    faultCoded := ⟨rfl, rfl⟩
    running := fun hbusy => absurd hbusy (by simp) }

theorem Inv.ldc (h : Inv s) : Inv { s with creg := loadedCreg s.coeffRom, upc := s.upc + 1#5 } :=
  { h with coefficients := .inr rfl }

/-- `UPD` reads within the window, so `IP` does not wrap (R45, R53). -/
theorem Inv.upd (h : Inv s) (sb : Vector (Option Sample) 32) (hroom : s.ip.toNat + 8 ≤ s.inp.length) :
    Inv { s with sb := sb, ip := s.ip + 8#32, upc := s.upc + 1#5 } := by
  have hip : (s.ip + 8#32).toNat = s.ip.toNat + 8 := BitVec.toNat_add_of_lt (hroom.trans_lt h.window)
  obtain ⟨hip8, hop16⟩ := h.pointers
  refine { h with pointers := ⟨?_, hop16⟩, running := fun hb => ?_ }
  · show (s.ip + 8#32).toNat % 8 = 0
    omega
  · obtain ⟨hlegal, -, hop, htrip, hout⟩ := h.running hb
    exact ⟨hlegal, hip.trans_le hroom, hop, htrip, hout⟩

/-- `WR` writes from `OP` on and within `NOUT` (R47, R53). -/
theorem Inv.wr (h : Inv s) (hroom : s.op.toNat + 16 ≤ s.nout.toNat) :
    Inv { s with
      out := s.out.writeFrom s.op.toNat (s.ov0.toList ++ s.ov1.toList)
      op := s.op + 16#32
      upc := s.upc + 1#5 } := by
  have hop : (s.op + 16#32).toNat = s.op.toNat + 16 := BitVec.toNat_add_of_lt (hroom.trans_lt s.nout.isLt)
  obtain ⟨hip8, hop16⟩ := h.pointers
  refine { h with
    memory := Memory.writeFrom_wf h.memory _ _
    pointers := ⟨hip8, ?_⟩
    running := fun hb => ?_ }
  · show (s.op + 16#32).toNat % 16 = 0
    omega
  · obtain ⟨hlegal, hip, -, htrip, hout⟩ := h.running hb
    refine ⟨hlegal, hip, hop.trans_le hroom, htrip, fun i hi => ?_⟩
    have hpast : s.op.toNat + 16 ≤ i := hop.symm.trans_le hi
    have hlength : (s.ov0.toList ++ s.ov1.toList).length = 16 := by simp
    rw [Memory.read_writeFrom h.memory, dif_neg (by omega)]
    exact hout i (by omega)

/-- A move of the sequencer that does not raise `TRIP` (R99). -/
theorem Inv.loop (h : Inv s) {trip : RegWord} (htrip : trip.toNat ≤ s.trip.toNat) (upc : UpcWord) :
    Inv { s with trip := trip, upc := upc } :=
  { h with
    running := fun hb => by
      obtain ⟨hlegal, hip, hop, hcount, hout⟩ := h.running hb
      exact ⟨hlegal, hip, hop, htrip.trans hcount, hout⟩ }

theorem Inv.completed (h : Inv s) (hf : s.status.fault = false) :
    Inv { s with status := statusCompleted s.status } :=
  { h with
    exclusive := ⟨fun hbusy => absurd hbusy.1 (by simp), fun hbusy => absurd hbusy.1 (by simp), fun hfault => by
      simp [hf] at hfault⟩
    running := fun hbusy => absurd hbusy (by simp)
    seen := fun _ => rfl }

/-- Every micro-op keeps the invariant of a busy, unfaulted block. -/
theorem Inv.after_exec (h : Inv s) (hb : s.status.busy = true) (hf : s.status.fault = false) {i : Instr} {t : State}
    (hexec : exec i s = .next t) : Inv t := by
  have hraise : ∀ f, Inv (s.raise f) := h.raise (h.not_done_of_busy hb)
  cases i with
  | ldc =>
    rcases execLdc_cases hexec with ⟨f, rfl⟩ | ⟨-, rfl⟩
    · exact hraise f
    · exact h.ldc
  | upd slot =>
    rcases execUpd_cases hexec with ⟨f, rfl⟩ | ⟨-, hroom, rfl⟩
    · exact hraise f
    · exact h.upd _ hroom
  | mulsym x =>
    rcases execMulsym_cases hexec with ⟨f, rfl⟩ | ⟨-, -, rfl⟩
    · exact hraise f
    · exact { h with }
  | mulctr x =>
    rcases execMulctr_cases hexec with ⟨f, rfl⟩ | ⟨-, -, rfl⟩
    · exact hraise f
    · exact { h with }
  | srszip sh =>
    rcases execSrszip_cases hexec with ⟨f, rfl⟩ | ⟨-, -, -, rfl⟩
    · exact hraise f
    · exact { h with }
  | wr =>
    rcases execWr_cases hexec with ⟨f, rfl⟩ | ⟨-, -, hroom, rfl⟩
    · exact hraise f
    · exact h.wr hroom
  | loop tgt =>
    rcases execLoop_cases hexec with ⟨f, rfl⟩ | ⟨hzero, -, rfl⟩ | ⟨-, -, rfl⟩
    · exact hraise f
    · exact h.loop (by bv_omega) tgt
    · exact h.loop (Nat.zero_le _) _
  | done =>
    have ht := execDone_cases hexec
    subst ht
    exact h.completed hf

theorem Inv.after_engineStep (h : Inv s) {t : State} (hstep : engineStep s = .next t) : Inv t := by
  obtain ⟨hb, hf, ⟨w, -, rfl⟩ | ⟨i, -, hexec⟩⟩ := engineStep_cases hstep
  · exact h.raise (h.not_done_of_busy hb) _
  · exact h.after_exec hb hf hexec

/-! ## What the host's updates keep -/

theorem Inv.record (h : Inv s) {d : Bool} (hd : d = true → s.doneSeen = true ∨ s.status.done = true)
    (r : Option Reply) (n : Nat) : Inv { s with reply := r, doneSeen := d, freeCount := n } :=
  { h with seen := fun hseen => (hd hseen).elim h.seen id }

theorem Inv.storeNout (h : Inv s) (hb : s.status.busy = false) (v : RegWord) : Inv { s with nout := v } :=
  { h with running := fun hbusy => by simp [hb] at hbusy }

theorem Inv.fill (h : Inv s) (hb : s.status.busy = false) {w : List Sample} (hw : w.length < 2 ^ 32) :
    Inv { s with inp := w } :=
  { h with
    running := fun hbusy => by simp [hb] at hbusy
    window := hw }

theorem Inv.begin (h : Inv s) (hf : s.status.fault = false) (hn : legalNout s.nout = true) : Inv s.begin where
  memory := rfl
  exclusive := by simp [hf]
  faultCoded := h.faultCoded
  pointers := ⟨rfl, rfl⟩
  running _ := ⟨hn, Nat.zero_le _, Nat.zero_le _, (begin_trip_toNat s).le, fun _ _ => rfl⟩
  window := h.window
  coefficients := .inl rfl
  seen hseen := by simp at hseen

theorem Inv.rejectStart (h : Inv s) (hb : s.status.busy = false) : Inv s.rejectStart := by
  have hcleared : Inv { s with status := { s.status with done := false }, doneSeen := false } :=
    { h with
      exclusive := by simp [hb]
      running := fun hbusy => by simp [hb] at hbusy
      seen := fun hseen => by simp at hseen }
  exact hcleared.raise rfl _

theorem Inv.applyReset (h : Inv s) : Inv s.applyReset where
  memory := h.memory
  exclusive := by simp
  faultCoded := ⟨rfl, rfl⟩
  pointers := ⟨rfl, rfl⟩
  running hbusy := by simp at hbusy
  window := h.window
  coefficients := .inl rfl
  seen hseen := by simp at hseen

theorem Inv.after_hostMove (h : Inv s) {a : HostAction} {t : State} (hmove : hostMove a s = .next t) : Inv t := by
  rcases hostMove_cases hmove with ⟨r, d, n, rfl, hd⟩ | ⟨hb, v, rfl⟩ | ⟨hb, w, hw, rfl⟩ | hstart | ⟨-, rfl⟩
  · exact h.record hd r n
  · exact h.storeNout hb v
  · exact h.fill hb hw
  · obtain ⟨hb, ⟨-, rfl⟩ | ⟨hf, hn, rfl⟩ | ⟨-, -, rfl⟩⟩ := hostStart_cases hstart
    · exact h
    · exact h.begin hf hn
    · exact h.rejectStart hb
  · exact h.applyReset

/-- The turns to come are no part of the invariant. -/
theorem Inv.takeTurn (h : Inv s) (rest : List Turn) : Inv { s with turns := rest } := { h with }

end

/-- After reset the invariant holds, with nothing running. -/
theorem Inv.reset : Inv State.reset where
  memory := State.reset_memory_wf
  exclusive := by decide
  faultCoded := ⟨rfl, rfl⟩
  pointers := ⟨rfl, rfl⟩
  running hbusy := absurd hbusy (by decide)
  window := by decide
  coefficients := .inl rfl
  seen hseen := absurd hseen (by decide)

theorem Tracks.reset : Tracks State.reset :=
  ⟨rfl, fun hbusy => absurd hbusy (by decide)⟩

end Sys2Proof.Safety

namespace Sys2Proof.Proofs
open Sys2Proof.Machine Sys2Proof.Safety

/-- Settles O58: taking a turn off the list keeps the invariant, and so does the engine's step or the host's move. -/
theorem everyStepKeepsTheInvariant : Obligations.EveryStepKeepsTheInvariant := by
  intro s t h hstep
  rcases step_cases hstep with ⟨rest, he⟩ | ⟨a, rest, -, hm⟩
  · exact (h.takeTurn rest).after_engineStep he
  · exact (h.takeTurn rest).after_hostMove hm

/-- Settles O59: in the reset state nothing is written, recorded or running, and the microprogram is the default. -/
theorem resetMeetsTheInvariants : Obligations.ResetMeetsTheInvariants :=
  ⟨Inv.reset, Tracks.reset, rfl⟩

end Sys2Proof.Proofs
end

