-- ==== Sys2Proof/Proofs/DefaultProgram.lean ====
section
/-!
SUPPORT. One engine step of the default microprogram (41_coefficient_and_buffer.md R79; 42_mac.md R87; 44_sequencing.md
R100, R104; 45_invocation.md R105): which micro-op stands at each word, what it does to the datapath, and that the step
goes on, starves in an `UPD`, or is that of `DONE`.
-/
namespace Sys2Proof.Machine

/-! ## The words of the default microprogram (R100) -/

/-- The micro-op of the default microprogram at word `u`: the prologue, word by word; the five words of sub-step `i`;
and the loop's end. -/
inductive DefaultAt : Nat → Instr → Prop
  | ldc : DefaultAt 0 .ldc
  | prime (k : Nat) (h : k < 2) : DefaultAt (k + 1) (.upd (BitVec.ofNat 2 k))
  | upd (i : Nat) (h : i < 4) : DefaultAt (5 * i + 3) (.upd (BitVec.ofNat 2 (i + 2)))
  | mulsym (i : Nat) (h : i < 4) : DefaultAt (5 * i + 4) (.mulsym (BitVec.ofNat 5 (8 * i + 3)))
  | mulctr (i : Nat) (h : i < 4) : DefaultAt (5 * i + 5) (.mulctr (BitVec.ofNat 5 (8 * i + 10)))
  | srszip (i : Nat) (h : i < 4) : DefaultAt (5 * i + 6) (.srszip 15#5)
  | wr (i : Nat) (h : i < 4) : DefaultAt (5 * i + 7) .wr
  | loop : DefaultAt 23 (.loop 3#5)
  | done : DefaultAt 24 .done

theorem exists_defaultAt {u : Nat} (h : u ≤ 24) : ∃ i, DefaultAt u i := by
  have hword : u = 0 ∨ (∃ k < 2, u = k + 1) ∨ (∃ i < 4, u = 5 * i + 3 ∨ u = 5 * i + 4 ∨ u = 5 * i + 5 ∨ u = 5 * i + 6 ∨
      u = 5 * i + 7) ∨ u = 23 ∨ u = 24 := by
    by_cases hlow : u ≤ 2
    · rcases Nat.eq_zero_or_pos u with hzero | hpos
      · exact .inl hzero
      · exact .inr (.inl ⟨u - 1, by omega, by omega⟩)
    · by_cases hhigh : u ≤ 22
      · exact .inr (.inr (.inl ⟨(u - 3) / 5, by omega, by omega⟩))
      · omega
  rcases hword with rfl | ⟨k, hk, rfl⟩ | ⟨i, hi, rfl | rfl | rfl | rfl | rfl⟩ | rfl | rfl
  · exact ⟨_, .ldc⟩
  · exact ⟨_, .prime k hk⟩
  · exact ⟨_, .upd i hi⟩
  · exact ⟨_, .mulsym i hi⟩
  · exact ⟨_, .mulctr i hi⟩
  · exact ⟨_, .srszip i hi⟩
  · exact ⟨_, .wr i hi⟩
  · exact ⟨_, .loop⟩
  · exact ⟨_, .done⟩

theorem decode_defaultAt {u : Nat} {i : Instr} (h : DefaultAt u i) (hu : u < 32) :
    decode defaultUprog[u] = .uop i := by
  cases h with
  | ldc | loop | done => revert hu; decide
  | prime k hk => revert k; decide
  | upd i hi => revert i; decide
  | mulsym i hi => revert i; decide
  | mulctr i hi => revert i; decide
  | srszip i hi => revert i; decide
  | wr i hi => revert i; decide

theorem toNat_advance {u : UpcWord} (h : u.toNat < 31) : (u + 1#5).toNat = u.toNat + 1 :=
  BitVec.toNat_add_of_lt (show u.toNat + 1 < 2 ^ 5 by omega)

/-! ## The table in `CREG` and the slots of the buffer, by index -/

/-- `CREG[i]` after `LDC`: the table's entry, the pad past it. -/
def tapWord (rom : Vector S16 31) (i : Nat) : S16 := if h : i < 31 then rom[i] else 0#16

theorem loadedCreg_getElem (rom : Vector S16 31) {i : Nat} (h : i < 32) :
    (loadedCreg rom)[i] = some (tapWord rom i) := by
  rw [loadedCreg, Vector.getElem_ofFn, tapWord]
  split <;> rfl

theorem fillSlot_getElem (slot : BitVec 2) (inp : List Sample) (p : Nat) (sb : Vector (Option Sample) 32) {j : Nat}
    (h : j < 32) : (fillSlot slot inp p sb)[j] = if j / 8 = slot.toNat then inp[p + j % 8]? else sb[j] := by
  rw [fillSlot, Vector.getElem_ofFn]
  rfl

end Sys2Proof.Machine

namespace Sys2Proof.Safety
open Sys2Proof.Machine

theorem tapWord_toInt (rom : Vector S16 31) (i : Nat) : (tapWord rom i).toInt = tap rom i := by
  rw [tapWord, tap]
  split
  · rfl
  · exact BitVec.toInt_zero

theorem getD_component (part : Sample → S16) {inp : List Sample} {m : Nat} (h : m < inp.length) :
    (part (inp.getD m default)).toInt = inComp part inp m := by
  rw [List.getD_eq_getElem inp default h, inComp, dif_pos h]

/-! ## The invariant of the default microprogram in two parts -/

/-- The part of `Progress` about the sequencer and the coefficient register. -/
structure Control (s : State) : Prop where
  place : s.upc.toNat ≤ 24 ∧ (s.upc.toNat ≤ 23 → 1 ≤ s.trip.toNat) ∧ (s.upc.toNat = 24 → s.trip.toNat = 0) ∧
    s.trip.toNat ≤ s.nout.toNat / 64 ∧ (s.upc.toNat ≤ 2 → s.trip.toNat = s.nout.toNat / 64)
  legal : legalNout s.nout = true
  loaded : 1 ≤ s.upc.toNat → s.creg = loadedCreg s.coeffRom

/-- The part of `Progress` about the data, after `u` `UPD`, `g` `WR` and `p` more micro-ops of the sub-step. -/
structure Datapath (s : State) (u g p : Nat) : Prop where
  pointers : s.ip.toNat = 8 * u ∧ s.op.toNat = 16 * g ∧ s.ip.toNat ≤ s.inp.length
  buffer : ∀ m (h : m % 32 < 32), m < s.ip.toNat → s.ip.toNat ≤ m + 32 → s.sb[m % 32] = s.inp[m]?
  filtered : 2 ≤ p → ∀ l (h : l < 8), ∃ a, s.acc0[l] = some a ∧
    a.re.toInt = evenSum s.coeffRom (inComp Sample.re s.inp) (8 * g + l) ∧
    a.im.toInt = evenSum s.coeffRom (inComp Sample.im s.inp) (8 * g + l)
  passed : 3 ≤ p → ∀ l (h : l < 8), ∃ a, s.acc1[l] = some a ∧
    a.re.toInt = oddProduct s.coeffRom (inComp Sample.re s.inp) (8 * g + l) ∧
    a.im.toInt = oddProduct s.coeffRom (inComp Sample.im s.inp) (8 * g + l)
  staged : p = 4 → ∀ i (h : i < 8),
    s.ov0[i] = some (closedOut s.srsRound s.srsSat s.coeffRom s.inp (16 * g + i)) ∧
    s.ov1[i] = some (closedOut s.srsRound s.srsSat s.coeffRom s.inp (16 * g + 8 + i))
  written : ∀ q, s.out.read q =
    if q < s.op.toNat then some (closedOut s.srsRound s.srsSat s.coeffRom s.inp q) else none

theorem progress_iff (s : State) :
    Progress s ↔ Control s ∧ Datapath s (updCount s) (wrCount s) (phase s) := by
  constructor
  · intro h
    exact ⟨{ h with }, { h with }⟩
  · rintro ⟨hc, hd⟩
    exact { hc, hd with }

/-! ## The counts at each word -/

section
variable {s : State}

/-- At the words of the prologue nothing is written and `upc` counts the groups read. -/
theorem counts_prologue (hu : s.upc.toNat ≤ 3) (htrip : s.trip.toNat = s.nout.toNat / 64) :
    updCount s = s.upc.toNat - 1 ∧ wrCount s = 0 ∧ phase s = 0 := by
  have hwr : wrCount s = 0 := by rw [wrCount, iterations, if_neg (by omega)]; omega
  have hphase : phase s = 0 := by rw [phase, if_pos (by omega)]; omega
  refine ⟨?_, hwr, hphase⟩
  rw [updCount, hwr, hphase, if_pos (rfl : 0 = 0)]
  split <;> omega

/-- At word `p` of sub-step `i`, or at the loop's end after the last sub-step. -/
theorem counts_substep {i p : Nat} (hu : s.upc.toNat = 5 * i + 3 + p) (hp : p < 5) (hlast : s.upc.toNat ≤ 23) :
    updCount s = 2 + (4 * iterations s + i) + (if p = 0 then 0 else 1) ∧ wrCount s = 4 * iterations s + i ∧
      phase s = p := by
  have hwr : wrCount s = 4 * iterations s + i := by rw [wrCount, if_neg (by omega)]; omega
  have hphase : phase s = p := by rw [phase]; split <;> omega
  exact ⟨by rw [updCount, if_neg (by omega), hwr, hphase], hwr, hphase⟩

theorem counts_done (hu : s.upc.toNat = 24) :
    updCount s = 2 + 4 * iterations s ∧ wrCount s = 4 * iterations s ∧ phase s = 0 := by
  have hwr : wrCount s = 4 * iterations s := by rw [wrCount, if_pos hu, Nat.add_zero]
  have hphase : phase s = 0 := by rw [phase, if_neg (by omega)]
  exact ⟨by rw [updCount, if_neg (by omega), hwr, hphase, if_pos rfl, Nat.add_zero], hwr, hphase⟩

/-! ## What each micro-op does to the datapath -/

variable {u g p : Nat}

/-- An element of the buffer that the rule for the last 32 samples names (R79). -/
theorem Datapath.sample (h : Datapath s u g p) {m j : Nat} (hj : j < 32) (hmod : j = m % 32) (hread : m < 8 * u)
    (hrecent : 8 * u ≤ m + 32) : s.sb[j] = some (s.inp.getD m default) := by
  subst hmod
  obtain ⟨hip, -, hlen⟩ := h.pointers
  have hm : m < s.inp.length := by omega
  rw [h.buffer m hj (by omega) (by omega), List.getElem?_eq_getElem hm, List.getD_eq_getElem s.inp default hm]

/-- `UPD` puts the next 8 samples into the slot of the oldest 8 (R77, R79). -/
theorem Datapath.upd (h : Datapath s u g 0) {slot : BitVec 2} (hslot : slot.toNat = u % 4)
    (hroom : s.ip.toNat + 8 ≤ s.inp.length) (hwrap : 8 * u + 8 < 2 ^ 32) (upc : UpcWord) {p : Nat} (hp : p ≤ 1) :
    Datapath { s with sb := fillSlot slot s.inp s.ip.toNat s.sb, ip := s.ip + 8#32, upc := upc } (u + 1) g p := by
  obtain ⟨hip, hop, hlen⟩ := h.pointers
  have hnext : (s.ip + 8#32).toNat = s.ip.toNat + 8 := BitVec.toNat_add_of_lt (by rw [hip]; exact hwrap)
  refine { h with
    pointers := ⟨?_, hop, hnext.trans_le hroom⟩
    buffer := fun m hm hread hrecent => ?_
    filtered := fun hp2 => by omega
    passed := fun hp3 => by omega
    staged := fun hp4 => by omega }
  · show (s.ip + 8#32).toNat = 8 * (u + 1)
    omega
  · replace hread : m < s.ip.toNat + 8 := hread.trans_eq hnext
    replace hrecent : s.ip.toNat + 8 ≤ m + 32 := hnext.symm.trans_le hrecent
    show (fillSlot slot s.inp s.ip.toNat s.sb)[m % 32] = s.inp[m]?
    rw [fillSlot_getElem slot s.inp s.ip.toNat s.sb hm]
    by_cases hnew : s.ip.toNat ≤ m
    · rw [if_pos (by omega), show s.ip.toNat + m % 32 % 8 = m by omega]
    · rw [if_neg (by omega)]
      exact h.buffer m hm (by omega) (by omega)

theorem Datapath.mulsym_samples (h : Datapath s (g + 3) g p) {x : BitVec 5} (hx : x.toNat = (8 * g + 3) % 32) :
    ∀ m < 21, (s.sb[(x.toNat + m) % 32]'(Nat.mod_lt _ (by decide))) = some (s.inp.getD (8 * g + 3 + m) default) :=
  fun m hm => h.sample (Nat.mod_lt _ (by decide)) (by omega) (by omega) (by omega)

theorem Datapath.mulctr_samples (h : Datapath s (g + 3) g p) {x : BitVec 5} (hx : x.toNat = (8 * g + 10) % 32) :
    ∀ l < 8, (s.sb[(x.toNat + l) % 32]'(Nat.mod_lt _ (by decide))) = some (s.inp.getD (8 * g + 10 + l) default) :=
  fun l hl => h.sample (Nat.mod_lt _ (by decide)) (by omega) (by omega) (by omega)

/-- The lanes of `MULSYM` are the filtered sums of pairs `8 * g` to `8 * g + 7` (R81, R105). -/
theorem Datapath.symLane_sum (h : Datapath s (g + 3) g p) (hc : s.creg = loadedCreg s.coeffRom) {x : BitVec 5}
    (hx : x.toNat = (8 * g + 3) % 32) {l : Nat} (hl : l < 8) : ∃ a, symLane s x l = some a ∧
      a.re.toInt = evenSum s.coeffRom (inComp Sample.re s.inp) (8 * g + l) ∧
      a.im.toInt = evenSum s.coeffRom (inComp Sample.im s.inp) (8 * g + l) := by
  obtain ⟨hip, -, hlen⟩ := h.pointers
  have hcreg : ∀ k (hk : k < 7), s.creg[2 * k] = some (tapWord s.coeffRom (2 * k)) := fun k hk => by
    rw [hc, loadedCreg_getElem s.coeffRom (by omega)]
  have hsum : ∀ part : Sample → S16, ∑ k ∈ Finset.range 7, (tapWord s.coeffRom (2 * k)).toInt *
        ((part (s.inp.getD (8 * g + 3 + (l + (13 - k))) default)).toInt +
          (part (s.inp.getD (8 * g + 3 + (l + k)) default)).toInt) =
      evenSum s.coeffRom (inComp part s.inp) (8 * g + l) := fun part => Finset.sum_congr rfl fun k hk => by
    have hk7 := Finset.mem_range.mp hk
    rw [tapWord_toInt, getD_component part (by omega), getD_component part (by omega),
      show 8 * g + 3 + (l + (13 - k)) = 16 + (8 * g + l) - k by omega,
      show 8 * g + 3 + (l + k) = 3 + (8 * g + l) + k by omega]
  rw [← hsum Sample.re, ← hsum Sample.im]
  exact symLane_exact (c := fun k => tapWord s.coeffRom (2 * k)) hcreg (h.mulsym_samples hx) hl

theorem Datapath.mulsym (h : Datapath s (g + 3) g 1) (hc : s.creg = loadedCreg s.coeffRom) {x : BitVec 5}
    (hx : x.toNat = (8 * g + 3) % 32) (upc : UpcWord) :
    Datapath { s with acc0 := Vector.ofFn fun l => symLane s x l.val, upc := upc } (g + 3) g 2 :=
  { h with
    filtered := fun _ l hl => by
      rw [Vector.getElem_ofFn]
      exact h.symLane_sum hc hx hl
    passed := fun hp3 => by omega
    staged := fun hp4 => by omega }

/-- The lanes of `MULCTR` are the products of pairs `8 * g` to `8 * g + 7` (R84, R105). -/
theorem Datapath.ctrLane_product (h : Datapath s (g + 3) g p) (hc : s.creg = loadedCreg s.coeffRom) {x : BitVec 5}
    (hx : x.toNat = (8 * g + 10) % 32) {l : Nat} (hl : l < 8) : ∃ a, ctrLane s x l = some a ∧
      a.re.toInt = oddProduct s.coeffRom (inComp Sample.re s.inp) (8 * g + l) ∧
      a.im.toInt = oddProduct s.coeffRom (inComp Sample.im s.inp) (8 * g + l) := by
  obtain ⟨hip, -, hlen⟩ := h.pointers
  have hcentre : s.creg[28] = some (tapWord s.coeffRom 28) := by rw [hc, loadedCreg_getElem]
  have hproduct : ∀ part : Sample → S16, (tapWord s.coeffRom 28).toInt *
        (part (s.inp.getD (8 * g + 10 + l) default)).toInt = oddProduct s.coeffRom (inComp part s.inp) (8 * g + l) :=
    fun part => by
      rw [oddProduct, tapWord_toInt, getD_component part (by omega), show 8 * g + 10 + l = 10 + (8 * g + l) by omega]
  rw [← hproduct Sample.re, ← hproduct Sample.im]
  exact ctrLane_exact hcentre (h.mulctr_samples hx l hl)

theorem Datapath.mulctr (h : Datapath s (g + 3) g 2) (hc : s.creg = loadedCreg s.coeffRom) {x : BitVec 5}
    (hx : x.toNat = (8 * g + 10) % 32) (upc : UpcWord) :
    Datapath { s with acc1 := Vector.ofFn fun l => ctrLane s x l.val, upc := upc } (g + 3) g 3 :=
  { h with
    filtered := fun _ => h.filtered (Nat.le_refl 2)
    passed := fun _ l hl => by
      rw [Vector.getElem_ofFn]
      exact h.ctrLane_product hc hx hl
    staged := fun hp4 => by omega }

/-- What `SRSZIP` stages is the next 16 outputs: the filtered one of each pair, then its other (R92, R93, R105). -/
theorem Datapath.zipLane_output (h : Datapath s u g 3) {n : Nat} (hn : n < 16) :
    zipLane s n = some (closedOut s.srsRound s.srsSat s.coeffRom s.inp (16 * g + n)) := by
  obtain ⟨l, rfl | rfl⟩ := Nat.even_or_odd' n
  · obtain ⟨a, ha, hre, him⟩ := h.filtered (by decide) l (by omega)
    rw [zipLane_even s (by omega), ha, Option.map_some, show 16 * g + 2 * l = 2 * (8 * g + l) by omega, closedOut,
      exactOut_even, exactOut_even, ← hre, ← him, srsLane]
  · obtain ⟨a, ha, hre, him⟩ := h.passed (Nat.le_refl 3) l (by omega)
    rw [zipLane_odd s (by omega), ha, Option.map_some, show 16 * g + (2 * l + 1) = 2 * (8 * g + l) + 1 by omega,
      closedOut, exactOut_odd, exactOut_odd, ← hre, ← him, srsLane]

theorem Datapath.srszip (h : Datapath s u g 3) (upc : UpcWord) :
    Datapath { s with
      ov0 := Vector.ofFn fun i => zipLane s i.val
      ov1 := Vector.ofFn fun i => zipLane s (8 + i.val)
      upc := upc } u g 4 :=
  { h with
    filtered := fun _ => h.filtered (by decide)
    passed := fun _ => h.passed (Nat.le_refl 3)
    staged := fun _ i hi => by
      rw [Vector.getElem_ofFn, Vector.getElem_ofFn, h.zipLane_output (by omega), h.zipLane_output (by omega),
        Nat.add_assoc]
      exact ⟨rfl, rfl⟩ }

/-- `WR` writes the staged outputs at their indices (R94, R105). -/
theorem Datapath.wr (h : Datapath s u g 4) (hroom : s.op.toNat + 16 ≤ s.nout.toNat) (upc : UpcWord) :
    Datapath { s with
      out := s.out.writeFrom s.op.toNat (s.ov0.toList ++ s.ov1.toList)
      op := s.op + 16#32
      upc := upc } u (g + 1) 0 := by
  obtain ⟨hip, hop, hlen⟩ := h.pointers
  have hnext : (s.op + 16#32).toNat = s.op.toNat + 16 := BitVec.toNat_add_of_lt (hroom.trans_lt s.nout.isLt)
  refine { h with
    pointers := ⟨hip, ?_, hlen⟩
    filtered := fun hp2 => by omega
    passed := fun hp3 => by omega
    staged := fun hp4 => by omega
    written := fun q => ?_ }
  · show (s.op + 16#32).toNat = 16 * (g + 1)
    omega
  · show (s.out.writeFrom s.op.toNat (s.ov0.toList ++ s.ov1.toList)).read q = if q < (s.op + 16#32).toNat then _ else _
    rw [read_staged (h.staged rfl), h.written q, hnext]
    by_cases hlow : q < s.op.toNat
    · rw [if_neg (by omega), if_neg (by omega), if_pos hlow, if_pos (by omega)]
    · by_cases hov0 : q < s.op.toNat + 8
      · rw [if_pos ⟨by omega, hov0⟩, if_pos (by omega), show 16 * g + (q - s.op.toNat) = q by omega]
      · by_cases hov1 : q < s.op.toNat + 16
        · rw [if_neg (by omega), if_pos ⟨by omega, hov1⟩, if_pos hov1,
            show 16 * g + 8 + (q - s.op.toNat - 8) = q by omega]
        · rw [if_neg (by omega), if_neg (by omega), if_neg hlow, if_neg hov1]

/-- A micro-op that writes no data, between two sub-steps. -/
theorem Datapath.kept (h : Datapath s u g 0) (creg : Vector (Option S16) 32) (trip : RegWord) (upc : UpcWord) :
    Datapath { s with creg := creg, trip := trip, upc := upc } u g 0 := { h with }

end

end Sys2Proof.Safety
end

