-- ==== Sys2Proof/Proofs/Invocation.lean ====
section
/-!
SUPPORT. Invocations of the default microprogram (44_sequencing.md R104, 45_invocation.md R105, R109): each engine step
of a tracked invocation goes on with one step less to do, starves in an `UPD`, or is that of `DONE`; so a long enough
window leads to the closed form. Settles O35 to O39.
-/
namespace Sys2Proof.Safety
open Sys2Proof.Machine

section
variable {s t : State}

/-! ## The data at each word -/

theorem datapath_prologue (hu : s.upc.toNat ≤ 3) (htrip : s.trip.toNat = s.nout.toNat / 64) :
    Datapath s (updCount s) (wrCount s) (phase s) ↔ Datapath s (s.upc.toNat - 1) 0 0 := by
  obtain ⟨hupd, hwr, hphase⟩ := counts_prologue hu htrip
  rw [hupd, hwr, hphase]

/-- Before the `UPD` of sub-step `i`, or at the loop's end. -/
theorem datapath_between {i : Nat} (hu : s.upc.toNat = 5 * i + 3) (hi : i ≤ 4) :
    Datapath s (updCount s) (wrCount s) (phase s) ↔
      Datapath s (4 * iterations s + i + 2) (4 * iterations s + i) 0 := by
  obtain ⟨hupd, hwr, hphase⟩ := counts_substep (i := i) (p := 0) hu (by decide) (by omega)
  rw [hupd, hwr, hphase, if_pos rfl, Nat.add_zero, Nat.add_comm 2]

/-- After `p` micro-ops of sub-step `i`. -/
theorem datapath_within {i p : Nat} (hu : s.upc.toNat = 5 * i + 3 + p) (hi : i < 4) (hpos : 0 < p) (hp : p < 5) :
    Datapath s (updCount s) (wrCount s) (phase s) ↔
      Datapath s (4 * iterations s + i + 3) (4 * iterations s + i) p := by
  obtain ⟨hupd, hwr, hphase⟩ := counts_substep hu hp (by omega)
  rw [hupd, hwr, hphase, if_neg (by omega), show 2 + (4 * iterations s + i) + 1 = 4 * iterations s + i + 3 by omega]

theorem datapath_done (hu : s.upc.toNat = 24) :
    Datapath s (updCount s) (wrCount s) (phase s) ↔ Datapath s (4 * iterations s + 2) (4 * iterations s) 0 := by
  obtain ⟨hupd, hwr, hphase⟩ := counts_done hu
  rw [hupd, hwr, hphase, Nat.add_comm 2]

/-! ## What the sequencer keeps -/

theorem Control.nout_eq (h : Control s) : 64 * (s.nout.toNat / 64) = s.nout.toNat := by
  obtain ⟨-, hmod⟩ := (legalNout_iff _).mp h.legal
  omega

/-- Each sub-step of a running iteration has a group of outputs of its own within `NOUT`. -/
theorem Control.substep_lt (h : Control s) (hu : s.upc.toNat ≤ 23) {i : Nat} (hi : i < 4) :
    4 * iterations s + i < 4 * (s.nout.toNat / 64) := by
  obtain ⟨-, htrip, -, hcount, -⟩ := h.place
  have hpos := htrip hu
  rw [iterations]
  omega

theorem upc_ne_last (hu : s.upc.toNat ≤ 24) : s.upc ≠ 31#5 := by bv_omega

/-- The invocation goes on: nothing of the status changes, the invariant holds again, and one step less is left. -/
structure Advances (s t : State) : Prop where
  status : t.status = s.status
  progress : Progress t
  steps : stepsLeft t + 1 = stepsLeft s

/-- `t` is one word past `s` in the same iteration, with the same status. -/
def Sequel (s t : State) : Prop :=
  t.status = s.status ∧ t.upc = s.upc + 1#5 ∧ t.trip = s.trip ∧ t.nout = s.nout

/-- A sequential micro-op that leaves the table in `CREG` and the data of the next word advances the invocation. -/
theorem Control.advances (h : Control s) (hu : s.upc.toNat ≤ 22) (hnext : Sequel s t)
    (hloaded : t.creg = loadedCreg t.coeffRom) (hd : Datapath t (updCount t) (wrCount t) (phase t)) : Advances s t := by
  obtain ⟨hstatus, hupc, htrip, hnout⟩ := hnext
  obtain ⟨-, hpos, -, hcount, hfirst⟩ := h.place
  have hupcNat : t.upc.toNat = s.upc.toNat + 1 := by rw [hupc, toNat_advance (by omega)]
  have hcontrol : Control t :=
    { place := by
        rw [hupcNat, htrip, hnout]
        exact ⟨by omega, fun _ => hpos (by omega), fun _ => by omega, hcount, fun _ => hfirst (by omega)⟩
      legal := hnout ▸ h.legal
      loaded := fun _ => hloaded }
  refine ⟨hstatus, (progress_iff t).mpr ⟨hcontrol, hd⟩, ?_⟩
  rw [stepsLeft, stepsLeft, hupcNat, htrip]
  omega

/-! ## Each micro-op of the default microprogram -/

/-- The `UPD` at hand finds fewer than 8 samples left, of the `16 + NOUT/2` that the invocation reads (R104). -/
def Starves (s : State) : Prop := s.inp.length < s.ip.toNat + 8 ∧ s.ip.toNat + 8 ≤ 16 + s.nout.toNat / 2

theorem Progress.ldc_advances (h : Progress s) (hu : s.upc.toNat = 0) :
    ∃ t, exec .ldc s = .next t ∧ Advances s t := by
  obtain ⟨hc, hd⟩ := (progress_iff s).mp h
  obtain ⟨-, -, -, -, hfirst⟩ := hc.place
  have htrip := hfirst (by omega)
  have hnext : (s.upc + 1#5).toNat = 1 := by rw [toNat_advance (by omega), hu]
  rw [datapath_prologue (by omega) htrip, hu] at hd
  refine ⟨_, exec_ldc (upc_ne_last (by omega)), hc.advances (by omega) ⟨rfl, rfl, rfl, rfl⟩ rfl ?_⟩
  refine (datapath_prologue (s := { s with creg := loadedCreg s.coeffRom, upc := s.upc + 1#5 })
    (hnext.trans_le (by decide)) htrip).mpr ?_
  show Datapath _ ((s.upc + 1#5).toNat - 1) 0 0
  rw [hnext]
  exact hd.kept _ s.trip _

/-- An `UPD` on its slot with its count of the data leads to the next word, or starves. -/
theorem Control.upd_advances (hc : Control s) (hu : 1 ≤ s.upc.toNat ∧ s.upc.toNat ≤ 22) {slot : BitVec 2} {u g p : Nat}
    (hd : Datapath s u g 0) (hslot : slot.toNat = u % 4) (hp : p ≤ 1) (hgroups : u < 2 + 4 * (s.nout.toNat / 64))
    (hcounts : ∀ t, Sequel s t → Datapath t (u + 1) g p → Datapath t (updCount t) (wrCount t) (phase t)) :
    (∃ t, exec (.upd slot) s = .next t ∧ Advances s t) ∨
      (Starves s ∧ exec (.upd slot) s = .next (s.raise (.inOverrun s.upc s.ip s.inp.length))) := by
  obtain ⟨hip, -, -⟩ := hd.pointers
  have hnout := hc.nout_eq
  have hbound := s.nout.isLt
  have hlast : s.upc ≠ 31#5 := upc_ne_last (by omega)
  rcases Nat.lt_or_ge s.inp.length (s.ip.toNat + 8) with hshort | hroom
  · exact .inr ⟨⟨hshort, by omega⟩, exec_upd_overrun slot hlast hshort⟩
  · have hnext := hd.upd hslot hroom (by omega) (s.upc + 1#5) hp
    exact .inl ⟨_, exec_upd_enough slot hlast hroom, hc.advances hu.2 ⟨rfl, rfl, rfl, rfl⟩ (hc.loaded hu.1)
      (hcounts _ ⟨rfl, rfl, rfl, rfl⟩ hnext)⟩

theorem Progress.prime_advances (h : Progress s) {k : Nat} (hk : k < 2) (hu : s.upc.toNat = k + 1) :
    (∃ t, exec (.upd (BitVec.ofNat 2 k)) s = .next t ∧ Advances s t) ∨
      (Starves s ∧ exec (.upd (BitVec.ofNat 2 k)) s = .next (s.raise (.inOverrun s.upc s.ip s.inp.length))) := by
  obtain ⟨hc, hd⟩ := (progress_iff s).mp h
  obtain ⟨-, -, -, -, hfirst⟩ := hc.place
  have htrip := hfirst (by omega)
  rw [datapath_prologue (by omega) htrip, hu, Nat.add_sub_cancel] at hd
  refine hc.upd_advances (by omega) (p := 0) hd (by rw [BitVec.toNat_ofNat]) (by decide) (by omega) ?_
  rintro t ⟨-, hupc, htript, hnoutt⟩ hdt
  have hupcNat : t.upc.toNat = k + 2 := by rw [hupc, toNat_advance (by omega), hu]
  rw [datapath_prologue (by omega) (by rw [htript, hnoutt, htrip]), hupcNat]
  exact hdt

theorem Progress.upd_advances (h : Progress s) {i : Nat} (hi : i < 4) (hu : s.upc.toNat = 5 * i + 3) :
    (∃ t, exec (.upd (BitVec.ofNat 2 (i + 2))) s = .next t ∧ Advances s t) ∨
      (Starves s ∧ exec (.upd (BitVec.ofNat 2 (i + 2))) s = .next (s.raise (.inOverrun s.upc s.ip s.inp.length))) := by
  obtain ⟨hc, hd⟩ := (progress_iff s).mp h
  have hgroup := hc.substep_lt (by omega) hi
  rw [datapath_between hu (by omega)] at hd
  refine hc.upd_advances (by omega) (p := 1) hd (by rw [BitVec.toNat_ofNat]; omega) (Nat.le_refl 1) (by omega) ?_
  rintro t ⟨-, hupc, htrip, hnout⟩ hdt
  have hupcNat : t.upc.toNat = 5 * i + 3 + 1 := by rw [hupc, toNat_advance (by omega), hu]
  have hiterations : iterations t = iterations s := by rw [iterations, iterations, htrip, hnout]
  rw [datapath_within hupcNat hi (by decide) (by decide), hiterations]
  exact hdt

theorem Progress.mulsym_advances (h : Progress s) {i : Nat} (hi : i < 4) (hu : s.upc.toNat = 5 * i + 4) :
    ∃ t, exec (.mulsym (BitVec.ofNat 5 (8 * i + 3))) s = .next t ∧ Advances s t := by
  obtain ⟨hc, hd⟩ := (progress_iff s).mp h
  have hcreg := hc.loaded (by omega)
  have hx : (BitVec.ofNat 5 (8 * i + 3)).toNat = (8 * (4 * iterations s + i) + 3) % 32 := by
    rw [BitVec.toNat_ofNat]; omega
  have hnext : (s.upc + 1#5).toNat = 5 * i + 3 + 2 := by rw [toNat_advance (by omega), hu]
  rw [datapath_within (p := 1) hu hi (by decide) (by decide)] at hd
  have hdefined : ∀ e ∈ mulsymReads (BitVec.ofNat 5 (8 * i + 3)), s.isDefined e = true :=
    mulsymReads_defined (fun k hk => by simp [hcreg, loadedCreg_getElem])
      fun m hm => Option.ne_none_iff_exists'.mpr ⟨_, hd.mulsym_samples hx m hm⟩
  exact ⟨_, exec_mulsym_defined (upc_ne_last (by omega)) hdefined, hc.advances (by omega) ⟨rfl, rfl, rfl, rfl⟩ hcreg
    ((datapath_within hnext hi (by decide) (by decide)).mpr (hd.mulsym hcreg hx _))⟩

theorem Progress.mulctr_advances (h : Progress s) {i : Nat} (hi : i < 4) (hu : s.upc.toNat = 5 * i + 5) :
    ∃ t, exec (.mulctr (BitVec.ofNat 5 (8 * i + 10))) s = .next t ∧ Advances s t := by
  obtain ⟨hc, hd⟩ := (progress_iff s).mp h
  have hcreg := hc.loaded (by omega)
  have hx : (BitVec.ofNat 5 (8 * i + 10)).toNat = (8 * (4 * iterations s + i) + 10) % 32 := by
    rw [BitVec.toNat_ofNat]; omega
  have hnext : (s.upc + 1#5).toNat = 5 * i + 3 + 3 := by rw [toNat_advance (by omega), hu]
  rw [datapath_within (p := 2) hu hi (by decide) (by decide)] at hd
  have hdefined : ∀ e ∈ mulctrReads (BitVec.ofNat 5 (8 * i + 10)), s.isDefined e = true :=
    mulctrReads_defined (by simp [hcreg, loadedCreg_getElem]) fun l hl =>
      Option.ne_none_iff_exists'.mpr ⟨_, hd.mulctr_samples hx l hl⟩
  exact ⟨_, exec_mulctr_defined (upc_ne_last (by omega)) hdefined, hc.advances (by omega) ⟨rfl, rfl, rfl, rfl⟩ hcreg
    ((datapath_within hnext hi (by decide) (by decide)).mpr (hd.mulctr hcreg hx _))⟩

theorem Progress.srszip_advances (h : Progress s) {i : Nat} (hi : i < 4) (hu : s.upc.toNat = 5 * i + 6) :
    ∃ t, exec (.srszip 15#5) s = .next t ∧ Advances s t := by
  obtain ⟨hc, hd⟩ := (progress_iff s).mp h
  have hnext : (s.upc + 1#5).toNat = 5 * i + 3 + 4 := by rw [toNat_advance (by omega), hu]
  rw [datapath_within (p := 3) hu hi (by decide) (by decide)] at hd
  have hdefined : ∀ e ∈ srszipReads, s.isDefined e = true :=
    lanes_defined (first := .acc0) (second := .acc1) fun l => by
      obtain ⟨a, ha, -⟩ := hd.filtered (by decide) l.val l.isLt
      obtain ⟨b, hb, -⟩ := hd.passed (Nat.le_refl 3) l.val l.isLt
      simp [ha, hb]
  exact ⟨_, exec_srszip_defined (upc_ne_last (by omega)) hdefined, hc.advances (by omega) ⟨rfl, rfl, rfl, rfl⟩
    (hc.loaded (by omega)) ((datapath_within hnext hi (by decide) (by decide)).mpr (hd.srszip _))⟩

theorem Progress.wr_advances (h : Progress s) {i : Nat} (hi : i < 4) (hu : s.upc.toNat = 5 * i + 7) :
    ∃ t, exec .wr s = .next t ∧ Advances s t := by
  obtain ⟨hc, hd⟩ := (progress_iff s).mp h
  have hnext : (s.upc + 1#5).toNat = 5 * (i + 1) + 3 := by rw [toNat_advance (by omega), hu]; omega
  rw [datapath_within (p := 4) hu hi (by decide) (by decide)] at hd
  have hdefined : ∀ e ∈ wrReads, s.isDefined e = true :=
    lanes_defined (first := .ov0) (second := .ov1) fun l => by
      obtain ⟨hov0, hov1⟩ := hd.staged rfl l.val l.isLt
      simp [hov0, hov1]
  have hroom : s.op.toNat + 16 ≤ s.nout.toNat := by
    obtain ⟨-, hop, -⟩ := hd.pointers
    have hgroup := hc.substep_lt (by omega) hi
    have hnout := hc.nout_eq
    omega
  exact ⟨_, exec_wr_room (upc_ne_last (by omega)) hdefined hroom, hc.advances (by omega) ⟨rfl, rfl, rfl, rfl⟩
    (hc.loaded (by omega)) ((datapath_between hnext (by omega)).mpr (hd.wr hroom _))⟩

/-- `LOOP` with iterations remaining goes back to the first sub-step (R96). -/
theorem Control.branch (h : Control s) (hu : s.upc.toNat = 23) (hmore : 2 ≤ s.trip.toNat) :
    Control { s with trip := s.trip - 1#32, upc := 3#5 } := by
  obtain ⟨-, -, -, hcount, -⟩ := h.place
  have hnext : (s.trip - 1#32).toNat = s.trip.toNat - 1 := by bv_omega
  refine { place := ?_, legal := h.legal, loaded := fun _ => h.loaded (by omega) }
  show 3 ≤ 24 ∧ (3 ≤ 23 → 1 ≤ (s.trip - 1#32).toNat) ∧ (3 = 24 → (s.trip - 1#32).toNat = 0) ∧
    (s.trip - 1#32).toNat ≤ s.nout.toNat / 64 ∧ (3 ≤ 2 → (s.trip - 1#32).toNat = s.nout.toNat / 64)
  omega

/-- The last `LOOP` falls through to `DONE` (R96). -/
theorem Control.fallThrough (h : Control s) (hu : s.upc.toNat = 23) :
    Control { s with trip := 0#32, upc := s.upc + 1#5 } := by
  have hnext : (s.upc + 1#5).toNat = 24 := by rw [toNat_advance (by omega), hu]
  refine { place := ?_, legal := h.legal, loaded := fun _ => h.loaded (by omega) }
  show (s.upc + 1#5).toNat ≤ 24 ∧ ((s.upc + 1#5).toNat ≤ 23 → 1 ≤ 0) ∧ ((s.upc + 1#5).toNat = 24 → 0 = 0) ∧
    0 ≤ s.nout.toNat / 64 ∧ ((s.upc + 1#5).toNat ≤ 2 → 0 = s.nout.toNat / 64)
  omega

theorem Progress.loop_advances (h : Progress s) (hu : s.upc.toNat = 23) :
    ∃ t, exec (.loop 3#5) s = .next t ∧ Advances s t := by
  obtain ⟨hc, hd⟩ := (progress_iff s).mp h
  obtain ⟨-, htrip, -, hcount, -⟩ := hc.place
  have hpos := htrip (by omega)
  have hsteps : stepsLeft s = 2 + 21 * (s.trip.toNat - 1) := by rw [stepsLeft, hu]
  rw [datapath_between (i := 4) hu (by decide)] at hd
  rcases Nat.lt_or_ge s.trip.toNat 2 with hlast | hmore
  · have hone : s.trip = 1#32 := BitVec.eq_of_toNat_eq (show s.trip.toNat = 1 by omega)
    have hnext : (s.upc + 1#5).toNat = 24 := by rw [toNat_advance (by omega), hu]
    have hiterations : iterations { s with trip := 0#32, upc := s.upc + 1#5 } = iterations s + 1 := by
      show s.nout.toNat / 64 - 0 = _
      rw [iterations]
      omega
    refine ⟨_, exec_loop_last 3#5 hone (upc_ne_last (by omega)), rfl,
      (progress_iff _).mpr ⟨hc.fallThrough hu, (datapath_done hnext).mpr ?_⟩, ?_⟩
    · rw [hiterations]
      exact hd.kept s.creg _ _
    · show 25 - (s.upc + 1#5).toNat + 21 * (0 - 1) + 1 = stepsLeft s
      omega
  · have hnext : (s.trip - 1#32).toNat = s.trip.toNat - 1 := by bv_omega
    have hiterations : iterations { s with trip := s.trip - 1#32, upc := 3#5 } = iterations s + 1 := by
      show s.nout.toNat / 64 - (s.trip - 1#32).toNat = _
      rw [iterations]
      omega
    refine ⟨_, exec_loop_branch 3#5 hmore, rfl,
      (progress_iff _).mpr ⟨hc.branch hu hmore, (datapath_between (i := 0) rfl (by decide)).mpr ?_⟩, ?_⟩
    · rw [hiterations]
      exact hd.kept s.creg _ _
    · show 25 - 3 + 21 * ((s.trip - 1#32).toNat - 1) + 1 = stepsLeft s
      omega

/-- A micro-op of the default microprogram advances the invocation, starves, or is `DONE`. -/
theorem Progress.exec_default (h : Progress s) {u : Nat} {i : Instr} (hi : DefaultAt u i) (hu : s.upc.toNat = u) :
    (∃ t, exec i s = .next t ∧ Advances s t) ∨
      (Starves s ∧ exec i s = .next (s.raise (.inOverrun s.upc s.ip s.inp.length))) ∨ (u = 24 ∧ i = .done) := by
  cases hi with
  | ldc => exact .inl (h.ldc_advances hu)
  | prime k hk => exact (h.prime_advances hk hu).imp_right .inl
  | upd i hi => exact (h.upd_advances hi hu).imp_right .inl
  | mulsym i hi => exact .inl (h.mulsym_advances hi hu)
  | mulctr i hi => exact .inl (h.mulctr_advances hi hu)
  | srszip i hi => exact .inl (h.srszip_advances hi hu)
  | wr i hi => exact .inl (h.wr_advances hi hu)
  | loop => exact .inl (h.loop_advances hu)
  | done => exact .inr (.inr ⟨rfl, rfl⟩)

/-! ## The steps of a tracked invocation -/

theorem Tracks.progress (h : Tracks s) (hb : s.status.busy = true) : Progress s := h.2 hb

/-- The engine's step in a tracked invocation goes on, starves, or is that of `DONE` (R104). -/
theorem Tracks.engineStep_cases (h : Tracks s) (hb : s.status.busy = true) (hf : s.status.fault = false) :
    (∃ t, engineStep s = .next t ∧ Advances s t) ∨
      (Starves s ∧ engineStep s = .next (s.raise (.inOverrun s.upc s.ip s.inp.length))) ∨
      (s.upc.toNat = 24 ∧ engineStep s = .next { s with status := statusCompleted s.status }) := by
  have hp := h.progress hb
  obtain ⟨huprog, -⟩ := h
  obtain ⟨hle, -⟩ := hp.place
  obtain ⟨i, hi⟩ := exists_defaultAt hle
  have hdecode : decode s.fetchWord = .uop i := by
    simp only [State.fetchWord, huprog]
    exact decode_defaultAt hi s.upc.isLt
  rw [engineStep_uop hb hf hdecode]
  rcases hp.exec_default hi rfl with hadvances | hstarves | ⟨hu, rfl⟩
  · exact .inl hadvances
  · exact .inr (.inl hstarves)
  · exact .inr (.inr ⟨hu, rfl⟩)

/-- At the word of `DONE` every output is written and every sample read (R109). -/
theorem Progress.delivered (h : Progress s) (hu : s.upc.toNat = 24) :
    s.op.toNat = s.nout.toNat ∧ s.ip.toNat = 16 + s.nout.toNat / 2 ∧ ∀ q, s.out.read q =
      if q < s.nout.toNat then some (closedOut s.srsRound s.srsSat s.coeffRom s.inp q) else none := by
  obtain ⟨hc, hd⟩ := (progress_iff s).mp h
  obtain ⟨-, -, hzero, -, -⟩ := hc.place
  have hiterations : iterations s = s.nout.toNat / 64 := by rw [iterations, hzero hu, Nat.sub_zero]
  have hnout := hc.nout_eq
  rw [datapath_done hu, hiterations] at hd
  obtain ⟨hip, hop, -⟩ := hd.pointers
  have hopnout : s.op.toNat = s.nout.toNat := by omega
  exact ⟨hopnout, by omega, hopnout ▸ hd.written⟩

theorem stepsLeft_pos (hu : s.upc.toNat ≤ 24) : 1 ≤ stepsLeft s := by
  rw [stepsLeft]
  omega

theorem Progress.stepsLeft_done (h : Progress s) (hu : s.upc.toNat = 24) : stepsLeft s = 1 := by
  obtain ⟨-, -, hzero, -, -⟩ := h.place
  rw [stepsLeft, hzero hu, hu]

theorem Advances.stepsLeft_ne_one (h : Advances s t) : stepsLeft s ≠ 1 := by
  obtain ⟨hle, -⟩ := h.progress.place
  have hpos := stepsLeft_pos hle
  have hsteps := h.steps
  omega

theorem Control.begin (hn : legalNout s.nout = true) : Control s.begin := by
  have htrip : s.begin.trip.toNat = s.nout.toNat / 64 := begin_trip_toNat s
  obtain ⟨hpos, hmod⟩ := (legalNout_iff _).mp hn
  refine { place := ?_, legal := hn, loaded := fun hstarted => absurd (show 1 ≤ 0 from hstarted) (by decide) }
  show 0 ≤ 24 ∧ (0 ≤ 23 → 1 ≤ s.begin.trip.toNat) ∧ (0 = 24 → s.begin.trip.toNat = 0) ∧
    s.begin.trip.toNat ≤ s.nout.toNat / 64 ∧ (0 ≤ 2 → s.begin.trip.toNat = s.nout.toNat / 64)
  omega

/-- An accepted START begins a tracked invocation, with nothing read or written. -/
theorem Progress.begin (hn : legalNout s.nout = true) : Progress s.begin := by
  have htrip : s.begin.trip.toNat = s.nout.toNat / 64 := begin_trip_toNat s
  refine (progress_iff _).mpr ⟨Control.begin hn, (datapath_prologue (s := s.begin) (Nat.zero_le 3) htrip).mpr ?_⟩
  exact
    { pointers := ⟨rfl, rfl, Nat.zero_le _⟩
      buffer := fun m _ hread => absurd hread (Nat.not_lt_zero m)
      filtered := fun hp => absurd hp (by decide)
      passed := fun hp => absurd hp (by decide)
      staged := fun hp => absurd hp (by decide)
      written := fun _ => rfl }

/-- A host move while BUSY changes nothing that the invariant is about, and START begins what it is about. -/
theorem Tracks.after_hostMove (h : Tracks s) {a : HostAction} (hmove : hostMove a s = .next t) : Tracks t := by
  obtain ⟨huprog, hprogress⟩ := h
  have hrest : ∀ u : State, u.uprog = s.uprog → u.status.busy = false → Tracks u := fun u hu hb =>
    ⟨hu.trans huprog, fun hbusy => by simp [hb] at hbusy⟩
  rcases hostMove_cases hmove with ⟨r, d, n, rfl, -⟩ | ⟨hb, v, rfl⟩ | ⟨hb, w, -, rfl⟩ | hstart | ⟨-, rfl⟩
  · exact ⟨huprog, fun hb => { hprogress hb with }⟩
  · exact hrest _ rfl hb
  · exact hrest _ rfl hb
  · obtain ⟨hb, ⟨-, rfl⟩ | ⟨-, hn, rfl⟩ | ⟨-, -, rfl⟩⟩ := hostStart_cases hstart
    · exact hrest _ rfl hb
    · exact ⟨huprog, fun _ => Progress.begin hn⟩
    · exact hrest _ rfl rfl
  · exact hrest _ rfl rfl

theorem Tracks.after_engineStep (h : Tracks s) (hstep : engineStep s = .next t) : Tracks t := by
  obtain ⟨hb, hf, -⟩ := Machine.engineStep_cases hstep
  obtain ⟨-, huprog, -, -⟩ := engineStep_same_constants hstep
  refine ⟨huprog.trans h.1, fun hbusy => ?_⟩
  rcases h.engineStep_cases hb hf with ⟨u, hu, -, hp, -⟩ | ⟨-, hu⟩ | ⟨-, hu⟩
  · rwa [next_inj.mp (hstep.symm.trans hu)]
  · simp [next_inj.mp (hstep.symm.trans hu)] at hbusy
  · simp [next_inj.mp (hstep.symm.trans hu)] at hbusy

/-- The turns to come are no part of the invariant. -/
theorem Tracks.takeTurn (h : Tracks s) (rest : List Turn) : Tracks { s with turns := rest } :=
  ⟨h.1, fun hb => { h.2 hb with }⟩

/-! ## From START to DONE -/

/-- A tracked invocation whose engine runs undisturbed on a window of `16 + NOUT/2` samples. -/
structure Undisturbed (s : State) : Prop where
  tracks : Tracks s
  busy : s.status.busy = true
  unfaulted : s.status.fault = false
  turns : s.turns = []
  window : 16 + s.nout.toNat / 2 ≤ s.inp.length

/-- `t` has what the closed form of `s` is made of. -/
structure SameInputs (s t : State) : Prop where
  nout : t.nout = s.nout
  inp : t.inp = s.inp
  turns : t.turns = s.turns
  constants : SameConstants s t

theorem engineStep_same_inputs (h : engineStep s = .next t) : SameInputs s t := by
  have hconstants := engineStep_same_constants h
  obtain ⟨-, -, ⟨w, -, rfl⟩ | ⟨i, -, hexec⟩⟩ := engineStep_cases h
  · exact ⟨rfl, rfl, rfl, hconstants⟩
  · obtain ⟨-, -, -, -, -, -, -, -, hnout, hinp, -, -, -, -, hturns, -⟩ :=
      Proofs.onlyItsWriterWritesAnElement i s t hexec
    exact ⟨hnout, hinp, hturns, hconstants⟩

theorem Undisturbed.progress (h : Undisturbed s) : Progress s := h.tracks.progress h.busy

theorem Undisturbed.not_starved (h : Undisturbed s) : ¬ Starves s := by
  rintro ⟨hshort, hneeded⟩
  have hwindow := h.window
  omega

/-- The next step goes on undisturbed, or is that of `DONE`. -/
theorem Undisturbed.step_cases (h : Undisturbed s) :
    (∃ t, step s = .next t ∧ Advances s t ∧ Undisturbed t ∧ SameInputs s t) ∨
      (s.upc.toNat = 24 ∧ step s = .next { s with status := statusCompleted s.status }) := by
  rw [step_engine h.turns]
  rcases h.tracks.engineStep_cases h.busy h.unfaulted with ⟨t, ht, hadvances⟩ | ⟨hstarves, -⟩ | hdone
  · have hsame := engineStep_same_inputs ht
    exact .inl ⟨t, ht, hadvances,
      { tracks := h.tracks.after_engineStep ht
        busy := hadvances.status ▸ h.busy
        unfaulted := hadvances.status ▸ h.unfaulted
        turns := hsame.turns.trans h.turns
        window := by rw [hsame.nout, hsame.inp]; exact h.window }, hsame⟩
  · exact absurd hstarves h.not_starved
  · exact .inr hdone

/-- `t` is completed from `s`, with the closed form in `OUT` below `NOUT` and nothing elsewhere. -/
def CompletedFrom (s t : State) : Prop :=
  t.status = statusCompleted s.status ∧ t.nout = s.nout ∧ ∀ q, t.out.read q =
    if q < s.nout.toNat then some (closedOut s.srsRound s.srsSat s.coeffRom s.inp q) else none

theorem CompletedFrom.of_advanced {u : State} (hstatus : t.status = s.status) (hsame : SameInputs s t)
    (h : CompletedFrom t u) : CompletedFrom s u := by
  obtain ⟨hnout, hinp, -, hrom, -, hround, hsat⟩ := hsame
  rw [CompletedFrom, hstatus, hnout, hinp, hrom, hround, hsat] at h
  exact h

theorem run_next {n : Nat} (h : step s = .next t) :
    Host.Core.run Sys2Proof.core (n + 1) s = Host.Core.run Sys2Proof.core n t := by
  have hcore : Sys2Proof.core.step s = .next t := h
  simp only [Host.Core.run, hcore]

/-- The steps left lead to `DONE`. -/
theorem Undisturbed.run (n : Nat) (h : Undisturbed s) (hn : stepsLeft s = n) :
    ∃ t : State, Host.Core.run Sys2Proof.core n s = .next t ∧ CompletedFrom s t := by
  induction n generalizing s with
  | zero =>
    obtain ⟨hle, -⟩ := h.progress.place
    have hpos := stepsLeft_pos hle
    omega
  | succ n ih =>
    rcases h.step_cases with ⟨t, hstep, hadvances, ht, hsame⟩ | ⟨hu, hstep⟩
    · have hsteps := hadvances.steps
      obtain ⟨u, hrun, hu⟩ := ih ht (by omega)
      exact ⟨u, (run_next hstep).trans hrun, hu.of_advanced hadvances.status hsame⟩
    · have hone := h.progress.stepsLeft_done hu
      have hzero : n = 0 := by omega
      obtain ⟨-, -, hout⟩ := h.progress.delivered hu
      subst hzero
      exact ⟨_, run_next hstep, rfl, rfl, hout⟩

/-- Before a clean launch the block is idle and unfaulted, with no fault code (R135). -/
theorem CleanLaunch.status {bufAlign T : Nat} {p : PlatformMap} (h : CleanLaunch bufAlign p T s) :
    s.status.busy = false ∧ s.status.fault = false ∧ s.status.fcode = 0#4 := by
  have hword : (statusWord s.status).toNat = 0 ∨ (statusWord s.status).toNat = 2 :=
    h.idle.imp (congrArg BitVec.toNat) (congrArg BitVec.toNat)
  rw [statusWord_toNat] at hword
  have hbusy := s.status.busy.toNat_le
  refine ⟨Bool.toNat_eq_zero.mp (by omega), Bool.toNat_eq_zero.mp (by omega), BitVec.eq_of_toNat_eq ?_⟩
  show s.status.fcode.toNat = 0
  omega

theorem CleanLaunch.legal {bufAlign T : Nat} {p : PlatformMap} (h : CleanLaunch bufAlign p T s) :
    legalNout s.nout = true := by
  have hnout := h.nout
  have hpositive := h.positive
  exact (legalNout_iff _).mpr (by omega)

/-- START of a clean launch begins an undisturbed invocation of `4 + 21 * T` steps. -/
theorem CleanLaunch.begin {bufAlign T : Nat} {p : PlatformMap} (h : CleanLaunch bufAlign p T s) :
    Undisturbed { s with turns := [] }.begin ∧ stepsLeft { s with turns := [] }.begin = 4 + 21 * T := by
  obtain ⟨-, hf, -⟩ := h.status
  have hnout := h.nout
  have hpositive := h.positive
  have htrip := begin_trip_toNat { s with turns := [] }
  refine ⟨
    { tracks := ⟨h.uprog, fun _ => Progress.begin h.legal⟩
      busy := rfl
      unfaulted := hf
      turns := rfl
      window := ?_ }, ?_⟩
  · show 16 + s.nout.toNat / 2 ≤ s.inp.length
    have hwindow := h.window
    omega
  · rw [stepsLeft, htrip]
    show 25 - 0 + 21 * (s.nout.toNat / 64 - 1) = 4 + 21 * T
    omega

end

end Sys2Proof.Safety

namespace Sys2Proof.Proofs
open Sys2Proof.Machine Sys2Proof.Safety

/-- Settles O35: each word of the default microprogram leads to the invariant of the next, a fault or `DONE` ends the
invocation, and the host's moves while BUSY leave it alone. -/
theorem everyStepTracksTheClosedForm : Obligations.EveryStepTracksTheClosedForm := by
  intro s t h hstep
  rcases step_cases hstep with ⟨rest, he⟩ | ⟨a, rest, -, hm⟩
  · exact (h.takeTurn rest).after_engineStep he
  · exact (h.takeTurn rest).after_hostMove hm

/-- Settles O36: of the steps of a busy block only that of `DONE` sets DONE, and there the counts are `NOUT`'s. -/
theorem completionDeliversTheClosedForm : Obligations.CompletionDeliversTheClosedForm := by
  intro s t h hb hnotdone hstep hdone
  rcases step_cases hstep with ⟨rest, he⟩ | ⟨a, rest, -, hm⟩
  · obtain ⟨-, hf, -⟩ := engineStep_cases he
    rcases (h.takeTurn rest).engineStep_cases hb hf with ⟨u, hu, hstatus, -⟩ | ⟨-, hu⟩ | ⟨hupc, hu⟩
    · rw [next_inj.mp (he.symm.trans hu), hstatus] at hdone
      simp [hnotdone] at hdone
    · rw [next_inj.mp (he.symm.trans hu)] at hdone
      simp [hnotdone] at hdone
    · rw [next_inj.mp (he.symm.trans hu)]
      exact ((h.takeTurn rest).progress hb).delivered hupc
  · rcases hostMove_status_cases hm with hsame | ⟨v, -, -, hstart⟩ | rfl
    · simp [hsame, hnotdone] at hdone
    · obtain ⟨hidle, -⟩ := hostStart_cases hstart
      simp [hb] at hidle
    · rw [← next_inj.mp hm] at hdone
      cases hdone

/-- Settles O37: a long enough window leaves no `UPD` short of samples. -/
theorem invocationCountsDownToDone : Obligations.InvocationCountsDownToDone := by
  intro s h hb hf hs hwindow
  have hundisturbed : Undisturbed s := ⟨h, hb, hf, hs, hwindow⟩
  rcases hundisturbed.step_cases with ⟨t, hstep, hadvances, -⟩ | ⟨hu, hstep⟩
  · exact ⟨t, hstep, hadvances.status ▸ hf, fun hone => absurd hone hadvances.stepsLeft_ne_one,
      fun _ => ⟨hadvances.status ▸ hb, hadvances.steps⟩⟩
  · have hone := (h.progress hb).stepsLeft_done hu
    exact ⟨_, hstep, hf, fun _ => ⟨rfl, rfl⟩, fun hmore => absurd hone hmore⟩

/-- Settles O38: at `DONE` the invocation has read `16 + NOUT/2` samples, which a shorter window does not have. -/
theorem shortWindowOverruns : Obligations.ShortWindowOverruns := by
  intro s h hb hf hs hshort
  rw [step_engine hs]
  rcases h.engineStep_cases hb hf with ⟨t, ht, hstatus, -, hsteps⟩ | ⟨⟨hstarved, -⟩, ht⟩ | ⟨hu, -⟩
  · exact ⟨t, ht, .inl ⟨hstatus ▸ hb, hstatus ▸ hf, hsteps⟩⟩
  · exact ⟨_, ht, .inr ⟨hstarved, faultState_raise s (.inOverrun s.upc s.ip s.inp.length)⟩⟩
  · have hp := h.progress hb
    obtain ⟨-, -, hread⟩ := hp.pointers
    obtain ⟨-, hip, -⟩ := hp.delivered hu
    omega

/-- Settles O39: START is accepted, and the run of the steps left ends completed with the closed form. -/
theorem cleanLaunchCompletes : Obligations.CleanLaunchCompletes := by
  intro bufAlign p T s h hs
  obtain ⟨hb, hf, hfcode⟩ := h.status
  have hstart : step s = .next { s with turns := [] }.begin := by
    rw [step, State.takeTurn, hs]
    exact (writeReg_ctrl_set (by decide) _).trans (hostStart_accepted hb hf h.legal)
  obtain ⟨hundisturbed, hsteps⟩ := h.begin
  obtain ⟨t, hrun, hstatus, hnout, hout⟩ := hundisturbed.run _ hsteps
  have hcompleted : t.status = { busy := false, done := true, fault := false, fcode := 0#4 } := by
    rw [hstatus]
    show ({ busy := false, done := true, fault := s.status.fault, fcode := s.status.fcode } : Status) = _
    rw [hf, hfcode]
  refine ⟨t, ?_, ?_, ⟨congrArg Status.done hcompleted, congrArg Status.fault hcompleted⟩, hnout, ?_⟩
  · rw [Nat.add_comm 1]
    exact (run_next hstart).trans hrun
  · rw [hcompleted]
    decide
  · rw [result, hnout]
    exact List.map_congr_left fun q hq => (hout q).trans (if_pos (List.mem_range.mp hq))

end Sys2Proof.Proofs
end
